-- ==== Sys2Proof/Word.lean ====
section
/-! DEFINITION. The widths of this hardware: bytes and 16-bit words, and the arithmetic the spec
writes on them (`00_scope.md` R8, R9, R10). Every value is unsigned. -/

namespace Sys2Proof

/-- An 8-bit value: a register `V[x]`, a memory byte, a timer (R21, R30, R35). -/
abbrev Byte := BitVec 8

/-- A 16-bit value: `I`, `PC`, a stack entry, an opcode (R24, R25, R28, R90). -/
abbrev Word := BitVec 16

/-- The index of a general register: the `X` or `Y` field of an opcode (R21, R91). -/
abbrev Reg := Fin 16

/-- VF, the flag register, `V[15]` (R22). -/
abbrev vf : Reg := 15

end Sys2Proof
end

