-- ==== Sys2Proof/Config.lean ====
section
/-! DEFINITION. What the spec fixes as parameters of the machine (`00_scope.md` R7) and the one value
it leaves free. The font bytes are in `Machine/Font.lean`. -/

namespace Sys2Proof.Config

/-- `MEM_SIZE` (R7): 4096 bytes, addresses 0x000 to 0xFFF. -/
abbrev memSize : Nat := 0x1000

/-- `PROG_BASE` (R7): where the loader puts a program, and the entry point (R301). -/
abbrev progBase : Nat := 0x200

/-- `MAX_PROG_LEN` (R7): the longest image the loader takes (R303). -/
abbrev maxProgLen : Nat := memSize - progBase

/-- `STACK_CAPACITY` (R7, `90_conflicts.md` C1). -/
abbrev stackCapacity : Nat := 12

/-- `DISPLAY_W` (R7). -/
abbrev displayW : Nat := 64

/-- `DISPLAY_H` (R7). -/
abbrev displayH : Nat := 32

/-- `FONT_BASE` (R7): the table occupies 0x050 to 0x09F (`90_conflicts.md` C2). -/
abbrev fontBase : Nat := 0x050

/-- The length of `FONT_TABLE`: 16 glyphs of 5 bytes (R41). -/
abbrev fontLen : Nat := 80

/-- The free value of the random input (`42_alu.md` R172: "For a model it is a free value under no
law"): the value of draw number `n` where the run does not say which byte the host presents. It has
no body that a proof can see. DESIGN CHOICE (log 1): safe. -/
opaque freeRnd : Nat → Byte

end Sys2Proof.Config
end

