-- ==== Sys2Proof/Syntax.lean ====
section
/-! DEFINITION. The 34 instructions of the dispatch table, one constructor per row of
`spec/opcode_table.json` (`30_encoding.md` R94), in the table's order. The fields are those of R91
and R92: `x`, `y` register indices, `nn` and `nnn` immediates, `n` a row count, all unsigned (R93). -/

namespace Sys2Proof

inductive Instr where
  /-- 00E0, clear screen (R210). -/
  | cls
  /-- 00EE, return (R140). -/
  | ret
  /-- 1NNN, jump (R141). -/
  | jp (nnn : BitVec 12)
  /-- 2NNN, call (R142). -/
  | call (nnn : BitVec 12)
  /-- 3XNN, skip if equal immediate (R144). -/
  | seImm (x : Reg) (nn : Byte)
  /-- 4XNN, skip if not equal immediate (R145). -/
  | sneImm (x : Reg) (nn : Byte)
  /-- 5XY0, skip if Vx equals Vy (R146). -/
  | seReg (x y : Reg)
  /-- 6XNN, load immediate (R161). -/
  | ldImm (x : Reg) (nn : Byte)
  /-- 7XNN, add immediate (R162). -/
  | addImm (x : Reg) (nn : Byte)
  /-- 8XY0, assign (R163). -/
  | ldReg (x y : Reg)
  /-- 8XY1, OR (R164). -/
  | or (x y : Reg)
  /-- 8XY2, AND (R165). -/
  | and (x y : Reg)
  /-- 8XY3, XOR (R166). -/
  | xor (x y : Reg)
  /-- 8XY4, add with carry flag (R167). -/
  | addReg (x y : Reg)
  /-- 8XY5, subtract with no-borrow flag (R168). -/
  | sub (x y : Reg)
  /-- 8XY6, shift right by one, source Vy (R169). -/
  | shr (x y : Reg)
  /-- 8XY7, reverse subtract (R170). -/
  | subn (x y : Reg)
  /-- 8XYE, shift left by one, source Vy (R171). -/
  | shl (x y : Reg)
  /-- 9XY0, skip if Vx differs from Vy (R147). -/
  | sneReg (x y : Reg)
  /-- ANNN, load I (R190). -/
  | ldI (nnn : BitVec 12)
  /-- BNNN, jump with offset V0 (R143). -/
  | jpV0 (nnn : BitVec 12)
  /-- CXNN, random (R172). -/
  | rnd (x : Reg) (nn : Byte)
  /-- DXYN, draw sprite (R211). -/
  | drw (x y : Reg) (n : BitVec 4)
  /-- EX9E, skip if key pressed (R230). -/
  | skp (x : Reg)
  /-- EXA1, skip if key not pressed (R231). -/
  | sknp (x : Reg)
  /-- FX07, read delay timer (R233). -/
  | ldVxDt (x : Reg)
  /-- FX0A, wait for a key (R232). -/
  | ldVxK (x : Reg)
  /-- FX15, write delay timer (R234). -/
  | ldDtVx (x : Reg)
  /-- FX18, write sound timer (R235). -/
  | ldStVx (x : Reg)
  /-- FX1E, add to I (R191). -/
  | addI (x : Reg)
  /-- FX29, font address (R192). -/
  | ldF (x : Reg)
  /-- FX33, BCD decompose (R193). -/
  | ldB (x : Reg)
  /-- FX55, register dump (R194). -/
  | dump (x : Reg)
  /-- FX65, register load (R195). -/
  | load (x : Reg)
  deriving DecidableEq, Repr

end Sys2Proof
end

