-- ==== Sys2Proof/WellFormed.lean ====
section
/-! DEFINITION. What a well-formed instruction word and a well-formed program image are.

A TERM of `Instr` is always well formed: its operand types hold exactly the values its encoding
admits (`30_encoding.md` R91, R93: `X` and `Y` are four bits, `NN` eight, `NNN` twelve, `N` four, and
every combination is legal, R98). What can be ill formed is a WORD, which the opcode map may not
list (R94, R99), and an IMAGE, which may have a length the loader does not take
(`70_reset_and_hazards.md` R303). -/

namespace Sys2Proof

/-- One row of the opcode map (R94): a word is the row's instruction exactly when
`op AND mask = sel`. -/
structure OpcodeRow where
  mask : Word
  sel  : Word
  deriving DecidableEq, Repr

/-- `op AND mask = match` (R94). -/
def OpcodeRow.selects (r : OpcodeRow) (op : Word) : Bool := op &&& r.mask == r.sel

/-- The row of each instruction (R94, and `mask`, `match` of `spec/opcode_table.json`). -/
def Instr.row : Instr → OpcodeRow
  | .cls        => ⟨0xFFFF, 0x00E0⟩
  | .ret        => ⟨0xFFFF, 0x00EE⟩
  | .jp _       => ⟨0xF000, 0x1000⟩
  | .call _     => ⟨0xF000, 0x2000⟩
  | .seImm _ _  => ⟨0xF000, 0x3000⟩
  | .sneImm _ _ => ⟨0xF000, 0x4000⟩
  | .seReg _ _  => ⟨0xF00F, 0x5000⟩
  | .ldImm _ _  => ⟨0xF000, 0x6000⟩
  | .addImm _ _ => ⟨0xF000, 0x7000⟩
  | .ldReg _ _  => ⟨0xF00F, 0x8000⟩
  | .or _ _     => ⟨0xF00F, 0x8001⟩
  | .and _ _    => ⟨0xF00F, 0x8002⟩
  | .xor _ _    => ⟨0xF00F, 0x8003⟩
  | .addReg _ _ => ⟨0xF00F, 0x8004⟩
  | .sub _ _    => ⟨0xF00F, 0x8005⟩
  | .shr _ _    => ⟨0xF00F, 0x8006⟩
  | .subn _ _   => ⟨0xF00F, 0x8007⟩
  | .shl _ _    => ⟨0xF00F, 0x800E⟩
  | .sneReg _ _ => ⟨0xF00F, 0x9000⟩
  | .ldI _      => ⟨0xF000, 0xA000⟩
  | .jpV0 _     => ⟨0xF000, 0xB000⟩
  | .rnd _ _    => ⟨0xF000, 0xC000⟩
  | .drw _ _ _  => ⟨0xF000, 0xD000⟩
  | .skp _      => ⟨0xF0FF, 0xE09E⟩
  | .sknp _     => ⟨0xF0FF, 0xE0A1⟩
  | .ldVxDt _   => ⟨0xF0FF, 0xF007⟩
  | .ldVxK _    => ⟨0xF0FF, 0xF00A⟩
  | .ldDtVx _   => ⟨0xF0FF, 0xF015⟩
  | .ldStVx _   => ⟨0xF0FF, 0xF018⟩
  | .addI _     => ⟨0xF0FF, 0xF01E⟩
  | .ldF _      => ⟨0xF0FF, 0xF029⟩
  | .ldB _      => ⟨0xF0FF, 0xF033⟩
  | .dump _     => ⟨0xF0FF, 0xF055⟩
  | .load _     => ⟨0xF0FF, 0xF065⟩

/-- The 34 rows, read off `Instr.row` in the table's order. -/
def opcodeTable : List OpcodeRow :=
  [.cls, .ret, .jp 0, .call 0, .seImm 0 0, .sneImm 0 0, .seReg 0 0, .ldImm 0 0, .addImm 0 0].map Instr.row
  ++ [.ldReg 0 0, .or 0 0, .and 0 0, .xor 0 0, .addReg 0 0, .sub 0 0, .shr 0 0, .subn 0 0, .shl 0 0].map
    Instr.row
  ++ [.sneReg 0 0, .ldI 0, .jpV0 0, .rnd 0 0, .drw 0 0 0, .skp 0, .sknp 0].map Instr.row
  ++ [.ldVxDt 0, .ldVxK 0, .ldDtVx 0, .ldStVx 0, .addI 0, .ldF 0, .ldB 0, .dump 0, .load 0].map Instr.row

/-- A word is well formed when a row of the opcode map selects it; any other word is illegal (R99). -/
def wordWellFormed (op : Word) : Bool := opcodeTable.any (·.selects op)

/-- An image the loader takes: 1 to 3584 bytes (R303). -/
def imageWellFormed (image : List Byte) : Bool :=
  decide (0 < image.length) && decide (image.length ≤ Config.maxProgLen)

end Sys2Proof
end

