-- ==== Sys2Proof/Decode.lean ====
section
/-! DEFINITION. The decoder (`30_encoding.md` R90 to R98, R101), total on every word and on every byte
string, and after it the encoder, written from the patterns of R94. Decoding depends on the 16 bits
alone (R101). -/

namespace Sys2Proof

/-! ### The fields of an opcode (R91) -/

/-- `G = op[15:12]`. -/
def fieldG (op : Word) : BitVec 4 := op.extractLsb' 12 4

/-- `X = op[11:8]`. -/
def fieldX (op : Word) : Reg := (op.extractLsb' 8 4).toFin

/-- `Y = op[7:4]`. -/
def fieldY (op : Word) : Reg := (op.extractLsb' 4 4).toFin

/-- `N = op[3:0]`. -/
def fieldN (op : Word) : BitVec 4 := op.extractLsb' 0 4

/-- `NN = op[7:0]`. -/
def fieldNN (op : Word) : Byte := op.extractLsb' 0 8

/-- `NNN = op[11:0]`. -/
def fieldNNN (op : Word) : BitVec 12 := op.extractLsb' 0 12

/-! ### Decoding a word (R98) -/

/-- Group 0: only two words are instructions (R95). -/
def decodeGroup0 (op : Word) : Option Instr :=
  if op = 0x00E0 then some .cls
  else if op = 0x00EE then some .ret
  else none

/-- Group 8: the secondary opcode is `N`; 8, 9, A, B, C, D, F are illegal (R96). -/
def decodeGroup8 (op : Word) : Option Instr :=
  match fieldN op with
  | 0x0 => some (.ldReg (fieldX op) (fieldY op))
  | 0x1 => some (.or (fieldX op) (fieldY op))
  | 0x2 => some (.and (fieldX op) (fieldY op))
  | 0x3 => some (.xor (fieldX op) (fieldY op))
  | 0x4 => some (.addReg (fieldX op) (fieldY op))
  | 0x5 => some (.sub (fieldX op) (fieldY op))
  | 0x6 => some (.shr (fieldX op) (fieldY op))
  | 0x7 => some (.subn (fieldX op) (fieldY op))
  | 0xE => some (.shl (fieldX op) (fieldY op))
  | _   => none

/-- Group E: the secondary opcode is `NN` (R97). -/
def decodeGroupE (op : Word) : Option Instr :=
  match fieldNN op with
  | 0x9E => some (.skp (fieldX op))
  | 0xA1 => some (.sknp (fieldX op))
  | _    => none

/-- Group F: the secondary opcode is `NN` (R97). -/
def decodeGroupF (op : Word) : Option Instr :=
  match fieldNN op with
  | 0x07 => some (.ldVxDt (fieldX op))
  | 0x0A => some (.ldVxK (fieldX op))
  | 0x15 => some (.ldDtVx (fieldX op))
  | 0x18 => some (.ldStVx (fieldX op))
  | 0x1E => some (.addI (fieldX op))
  | 0x29 => some (.ldF (fieldX op))
  | 0x33 => some (.ldB (fieldX op))
  | 0x55 => some (.dump (fieldX op))
  | 0x65 => some (.load (fieldX op))
  | _    => none

/-- `Decode(op)` of R98; `none` is its `Illegal`. -/
def decodeWord (op : Word) : Option Instr :=
  match fieldG op with
  | 0x0 => decodeGroup0 op
  | 0x1 => some (.jp (fieldNNN op))
  | 0x2 => some (.call (fieldNNN op))
  | 0x3 => some (.seImm (fieldX op) (fieldNN op))
  | 0x4 => some (.sneImm (fieldX op) (fieldNN op))
  | 0x5 => if fieldN op = 0 then some (.seReg (fieldX op) (fieldY op)) else none
  | 0x6 => some (.ldImm (fieldX op) (fieldNN op))
  | 0x7 => some (.addImm (fieldX op) (fieldNN op))
  | 0x8 => decodeGroup8 op
  | 0x9 => if fieldN op = 0 then some (.sneReg (fieldX op) (fieldY op)) else none
  | 0xA => some (.ldI (fieldNNN op))
  | 0xB => some (.jpV0 (fieldNNN op))
  | 0xC => some (.rnd (fieldX op) (fieldNN op))
  | 0xD => some (.drw (fieldX op) (fieldY op) (fieldN op))
  | 0xE => decodeGroupE op
  | _   => decodeGroupF op

/-! ### Decoding bytes -/

/-- The word of two consecutive bytes: the lower address holds `op[15:8]` (R63, R91). -/
def bigEndian (hi lo : Byte) : Word := hi ++ lo

/-- The byte at the lower address, `op[15:8]` (R63). -/
def highByte (op : Word) : Byte := op.extractLsb' 8 8

/-- The byte at the higher address, `op[7:0]` (R63). -/
def lowByte (op : Word) : Byte := op.extractLsb' 0 8

/-- Why a byte string gives no instruction. -/
inductive DecodeReject where
  /-- Fewer than two bytes: an instruction is one 16-bit word (R90). -/
  | truncated
  /-- The word matches no row of the opcode map (R99, R100). -/
  | illegal (op : Word)
  deriving DecidableEq, Repr

/-- The instruction the first two bytes spell, with the bytes after it, or the reason there is none. -/
def decode : List Byte → Except DecodeReject (Instr × List Byte)
  | hi :: lo :: rest =>
    match decodeWord (bigEndian hi lo) with
    | some i => .ok (i, rest)
    | none   => .error (.illegal (bigEndian hi lo))
  | _ => .error .truncated

/-- What the decoder reads from the instruction whose bits are `w`, laid out as memory holds it. Every
row of the table has 16 bits (R90), and a bit above `nbits` is 0. -/
def decodeTableWord (nbits w : Nat) : Option Instr :=
  let op : Word := BitVec.ofNat 16 (w % 2 ^ nbits)
  match decode [highByte op, lowByte op] with
  | .ok (i, _) => some i
  | .error _   => none

/-! ### Encoding (R92, R94) -/

/-- Format `NNN`. -/
def packNNN (g : BitVec 4) (nnn : BitVec 12) : Word := g ++ nnn

/-- Formats `XNN` and `X`. -/
def packXNN (g : BitVec 4) (x : Reg) (nn : Byte) : Word :=
  let xb : BitVec 4 := BitVec.ofFin x
  g ++ xb ++ nn

/-- Formats `XY` and `XYN`. -/
def packXYN (g : BitVec 4) (x y : Reg) (n : BitVec 4) : Word :=
  let xb : BitVec 4 := BitVec.ofFin x
  let yb : BitVec 4 := BitVec.ofFin y
  g ++ xb ++ yb ++ n

/-- The word of an instruction, from the pattern of its row (R94). -/
def encode : Instr → Word
  | .cls         => 0x00E0
  | .ret         => 0x00EE
  | .jp nnn      => packNNN 0x1 nnn
  | .call nnn    => packNNN 0x2 nnn
  | .seImm x nn  => packXNN 0x3 x nn
  | .sneImm x nn => packXNN 0x4 x nn
  | .seReg x y   => packXYN 0x5 x y 0x0
  | .ldImm x nn  => packXNN 0x6 x nn
  | .addImm x nn => packXNN 0x7 x nn
  | .ldReg x y   => packXYN 0x8 x y 0x0
  | .or x y      => packXYN 0x8 x y 0x1
  | .and x y     => packXYN 0x8 x y 0x2
  | .xor x y     => packXYN 0x8 x y 0x3
  | .addReg x y  => packXYN 0x8 x y 0x4
  | .sub x y     => packXYN 0x8 x y 0x5
  | .shr x y     => packXYN 0x8 x y 0x6
  | .subn x y    => packXYN 0x8 x y 0x7
  | .shl x y     => packXYN 0x8 x y 0xE
  | .sneReg x y  => packXYN 0x9 x y 0x0
  | .ldI nnn     => packNNN 0xA nnn
  | .jpV0 nnn    => packNNN 0xB nnn
  | .rnd x nn    => packXNN 0xC x nn
  | .drw x y n   => packXYN 0xD x y n
  | .skp x       => packXNN 0xE x 0x9E
  | .sknp x      => packXNN 0xE x 0xA1
  | .ldVxDt x    => packXNN 0xF x 0x07
  | .ldVxK x     => packXNN 0xF x 0x0A
  | .ldDtVx x    => packXNN 0xF x 0x15
  | .ldStVx x    => packXNN 0xF x 0x18
  | .addI x      => packXNN 0xF x 0x1E
  | .ldF x       => packXNN 0xF x 0x29
  | .ldB x       => packXNN 0xF x 0x33
  | .dump x      => packXNN 0xF x 0x55
  | .load x      => packXNN 0xF x 0x65

/-- The two bytes of an instruction in memory order (R63, R104). -/
def encodeBytes (i : Instr) : List Byte := [highByte (encode i), lowByte (encode i)]

end Sys2Proof
end

