-- ==== Sys2Proof/Machine/State.lean ====
section
/-! DEFINITION. The state of the engine (`10_state.md` R20), what an event answers, the reasons a step
stops, and the state after reset (R40). All of it is plain data. -/

namespace Sys2Proof.Machine

/-- The wait-for-key latch of FX0A (R36). -/
inductive Latch where
  | idle
  | latched (k : Fin 16)
  deriving DecidableEq, Repr

/-- What a cycle or a load reports to the host's diagnostic channel (`60_exceptions.md` R250): the
offending word and the address `A` it was fetched from, or the length offered to the loader. -/
inductive Diagnostic where
  | none
  | decodeError (op a : Word)
  | stackOverflow (op a : Word)
  | stackUnderflow (op a : Word)
  | loadError (len : Nat)
  deriving DecidableEq, Repr

/-- The numeric code of a diagnostic (R250). -/
def Diagnostic.code : Diagnostic → Nat
  | .none => 0
  | .decodeError _ _ => 1
  | .stackOverflow _ _ => 2
  | .stackUnderflow _ _ => 3
  | .loadError _ => 4

/-- The 64 × 32 framebuffer, one row of 64 bits after another from the top; pixel `(x, y)` is bit `x`
of row `y` (R32). DESIGN CHOICE (log 16): safe; index `y*64 + x` of R32 is computed from it. -/
abbrev FrameBuffer := Vector (BitVec 64) 32

/-- The output of one event (R262). -/
inductive Output where
  /-- Nothing: `RESET`, `TICK`, `KEYWRITE`, and before any event. -/
  | quiet
  /-- `CYCLE` completed with this diagnostic (R124). -/
  | completed (d : Diagnostic)
  /-- `LOAD` answered this diagnostic (R302). -/
  | loaded (d : Diagnostic)
  /-- `REDRAW?` answered the old dirty flag (R263). -/
  | redraw (dirty : Bool)
  /-- The framebuffer view (R264). -/
  | frame (fb : FrameBuffer)
  /-- The `audible` bit (R261). -/
  | audible (on : Bool)
  deriving DecidableEq, Repr

/-- The events of the host (R262). The argument types leave out what the spec's ports leave out (U10:
a key index is 4 bits, an image is a finite byte string). -/
inductive HostEvent where
  /-- `RESET`, with the configuration `FONT_TABLE` as its input (R300, R41). -/
  | reset (font : Vector Byte 80)
  /-- `LOAD(bytes)` (R302). -/
  | load (bytes : List Byte)
  /-- `CYCLE(rnd)` (R121, R266). -/
  | cycle (rnd : Byte)
  /-- `TICK` (R258). -/
  | tick
  /-- `KEYWRITE(k, b)` (R265). -/
  | keyWrite (k : Fin 16) (b : Bool)
  /-- `REDRAW?` (R263). -/
  | redrawQuery
  /-- Read `FB` (R264). -/
  | readFb
  /-- Read `audible` (R261). -/
  | readAudible
  deriving DecidableEq, Repr

/-- Memory: the bytes that differ from the reset contents, as (address, byte) cells with strictly
rising addresses (log 5). Its operations are in `Machine/Memory.lean`. -/
abbrev Memory := List Host.Cell

structure State where
  /-- `V[0..15]` (R21). -/
  v : Vector Byte 16
  /-- `I` (R24). -/
  i : Word
  /-- `PC` (R25). -/
  pc : Word
  /-- `S[0..11]` (R28). -/
  stack : Vector Word 12
  /-- `SP`, the depth, 0 to 12 (R28). -/
  sp : Fin 13
  /-- `DT`, the delay timer (R30). -/
  dt : Byte
  /-- `ST`, the sound timer (R30). -/
  st : Byte
  /-- `FB` (R32). -/
  fb : FrameBuffer
  /-- `DIRTY` (R33). -/
  dirty : Bool
  /-- `KEY[0..15]`, true = held down (R34). -/
  key : Vector Bool 16
  /-- `KW` (R36). -/
  kw : Latch
  /-- `MEM` (R35). -/
  mem : Memory
  /-- The MODEL's field: the output of the last event (R251, R262). DESIGN CHOICE (log 3): safe. -/
  out : Output
  /-- The MODEL's field: the events the host will issue, oldest first; when there is none the host
  issues `CYCLE` (R262, R270). DESIGN CHOICE (log 2): unsafe for a claim about one fixed list. -/
  host : List HostEvent
  /-- The MODEL's field: the value on the random input in the cycle being run; `none` where the run
  does not say (R266). DESIGN CHOICE (log 1): safe. -/
  rnd : Option Byte
  /-- The MODEL's field: the number of the next free draw (R172). DESIGN CHOICE (log 1): safe. -/
  rndIndex : Nat
  deriving DecidableEq, Repr

/-- The state after reset (R40, R300, R301): everything zero but `PC` and the font table; the font
table is part of what an unlisted address reads as, so memory lists nothing. The last four fields are
the model's own (log 1, log 2, log 3). -/
def State.reset : State where
  v := Vector.replicate 16 0
  i := 0
  pc := 0x200
  stack := Vector.replicate 12 0
  sp := 0
  dt := 0
  st := 0
  fb := Vector.replicate 32 0
  dirty := false
  key := Vector.replicate 16 false
  kw := .idle
  mem := []
  out := .quiet
  host := []
  rnd := none
  rndIndex := 0

/-- Why the engine has no successor state (`60_exceptions.md` R252). -/
inductive Fault where
  /-- `MemoryBoundsFault(addr)`: the fetch, DXYN, FX33, FX55 or FX65 would access an address above
  0xFFF; `addr` is the lowest such address (R66). Raised by `Machine/Ops.lean`'s `checkRange`, and by
  nothing else. Safe: the model stops where an implementation may go on. -/
  | memoryBounds (addr : Nat)
  /-- `KeypadIndexFault(value)`: EX9E or EXA1 with `Vx > 15` (R230, R231). Raised by
  `Machine/Ops.lean`'s `withKey`, and by nothing else. Safe, for the same reason. -/
  | keypadIndex (value : Byte)
  deriving DecidableEq, Repr

/-- The numeric code of a fault (R252). -/
def Fault.code : Fault → Nat
  | .memoryBounds _ => 5
  | .keypadIndex _ => 6

/-- Why the model gives an instruction no meaning. -/
inductive Refusal where
  /-- An arm of `exec` that has no meaning yet, by its mnemonic. No arm raises it: every instruction of
  the table has its meaning. Safe. -/
  | notModelled (mnemonic : String)
  deriving DecidableEq, Repr

/-- What a meaning, a cycle and a step answer. -/
abbrev Result := Host.Outcome State Fault Refusal

end Sys2Proof.Machine
end

