-- ==== Sys2Proof/Machine/Operands.lean ====
section
/-! DEFINITION. The operand forms (`30_encoding.md` R93): "register Vx" and "register Vy", the immediates
widened with zeros, the key states, the stack slots and the pixels. There is no addressing-mode
field. -/

namespace Sys2Proof.Machine

/-- `V[x]` (R21). Every register holds what was last written; none is hardwired. -/
def State.readV (s : State) (x : Reg) : Byte := s.v[x]

/-- `V[x] <- b` (R21). -/
def State.writeV (s : State) (x : Reg) (b : Byte) : State := { s with v := s.v.set x b }

/-- `I <- w` (R24): 16 bits, no mask. -/
def State.writeI (s : State) (w : Word) : State := { s with i := w }

/-- `PC <- w` (R25): 16 bits, no mask, no alignment (R27). -/
def State.writePc (s : State) (w : Word) : State := { s with pc := w }

/-- An 8-bit value widened to 16 bits with zeros (R9). -/
def zext16 (b : Byte) : Word := b.setWidth 16

/-- A 12-bit immediate widened to 16 bits with zeros (R93). -/
def zextNNN (nnn : BitVec 12) : Word := nnn.setWidth 16

/-- Pixel `(x, y)` of a framebuffer (R32); nothing is set outside the display. -/
def FrameBuffer.pixel (fb : FrameBuffer) (x y : Nat) : Bool :=
  if h : y < 32 then fb[y].getLsbD x else false

/-- Pixel `(x, y)` inverted; nothing changes outside the display. -/
def FrameBuffer.flip (fb : FrameBuffer) (x y : Nat) : FrameBuffer :=
  if h : y < 32 then fb.set y (fb[y] ^^^ (1#64 <<< x)) else fb

/-- The framebuffer as the 2048 booleans of R32: index `y*64 + x`. -/
def FrameBuffer.bit (fb : FrameBuffer) (index : Nat) : Bool := fb.pixel (index % 64) (index / 64)

/-- The least pressed key, if any (R232: "scan keys 0..15 in order"). -/
def leastPressed (key : Vector Bool 16) : Option (Fin 16) :=
  (List.finRange 16).find? fun k => key[k]

end Sys2Proof.Machine
end

