-- ==== Sys2Proof/Machine/Flags.lean ====
section
/-! DEFINITION. The 8-bit arithmetic laws (`42_alu.md` R160) and every value an instruction puts in VF
(`10_state.md` R38), with the write order of R173: the result first, the flag last. -/

namespace Sys2Proof.Machine

/-- A flag is the number 1 or 0 (R38, R211). -/
def flagByte (b : Bool) : Byte := if b then 1 else 0

/-- `a +8 b` (R160). -/
def add8 (a b : Byte) : Byte := a + b

/-- `a −8 b` (R160). -/
def sub8 (a b : Byte) : Byte := a - b

/-- `carry(a, b)`: the sum over the integers is above 255 (R160). -/
def carry (a b : Byte) : Bool := decide (a.toNat + b.toNat > 255)

/-- `noborrow(a, b)`: `a ≥ b` (R160). -/
def noBorrow (a b : Byte) : Bool := decide (a.toNat ≥ b.toNat)

/-- `shr1(b)` (R160): the upper seven bits, a zero above them. -/
def shr1 (b : Byte) : Byte := b >>> 1

/-- `shl1(b)` (R160): the lower seven bits, a zero below them. -/
def shl1 (b : Byte) : Byte := b <<< 1

/-- The bit a right shift loses, `b[0]` (R160). -/
def lostRight (b : Byte) : Bool := b.getLsbD 0

/-- The bit a left shift loses, `b[7]` (R160). -/
def lostLeft (b : Byte) : Bool := b.getLsbD 7

/-- The result goes to `V[x]`, then the flag to VF, so that VF holds the flag when `x` is 15 (R173,
R22). -/
def State.writeVFlag (s : State) (x : Reg) (result : Byte) (flag : Bool) : State :=
  (s.writeV x result).writeV vf (flagByte flag)

end Sys2Proof.Machine
end

