-- ==== Sys2Proof/Machine/Font.lean ====
section
/-! DEFINITION. The default `FONT_TABLE` (`10_state.md` R41): 16 glyphs of 5 bytes, top row first.
PRESUMED (log 4): the spec gives the bytes from general knowledge and calls them a parameter. Unsafe
for a claim about a glyph's pixels, which must say that it rests on this table; `RESET` takes any
other table as its input. -/

namespace Sys2Proof.Machine

/-- Glyphs 0 to 7. -/
def fontLow : List Byte :=
  [0xF0, 0x90, 0x90, 0x90, 0xF0] ++ [0x20, 0x60, 0x20, 0x20, 0x70] ++
  [0xF0, 0x10, 0xF0, 0x80, 0xF0] ++ [0xF0, 0x10, 0xF0, 0x10, 0xF0] ++
  [0x90, 0x90, 0xF0, 0x10, 0x10] ++ [0xF0, 0x80, 0xF0, 0x10, 0xF0] ++
  [0xF0, 0x80, 0xF0, 0x90, 0xF0] ++ [0xF0, 0x10, 0x20, 0x40, 0x40]

/-- Glyphs 8 to F. -/
def fontHigh : List Byte :=
  [0xF0, 0x90, 0xF0, 0x90, 0xF0] ++ [0xF0, 0x90, 0xF0, 0x10, 0xF0] ++
  [0xF0, 0x90, 0xF0, 0x90, 0x90] ++ [0xE0, 0x90, 0xE0, 0x90, 0xE0] ++
  [0xF0, 0x80, 0x80, 0x80, 0xF0] ++ [0xE0, 0x90, 0x90, 0x90, 0xE0] ++
  [0xF0, 0x80, 0xF0, 0x80, 0xF0] ++ [0xF0, 0x80, 0xF0, 0x80, 0x80]

/-- The default `FONT_TABLE`, 80 bytes. -/
def fontTable : List Byte := fontLow ++ fontHigh

end Sys2Proof.Machine
end

