-- ==== Sys2Proof/Machine/Memory.lean ====
section
/-! DEFINITION. `MEM` (`20_memory.md`): 4096 bytes, read and written one byte at a time, no address
with a side effect and none protected (R60, R64, R68, R69). The bounds check of R66 is made by the
caller (`Machine/Ops.lean`, `checkRange`) before any byte moves. -/

namespace Sys2Proof.Machine

/-- What an address that memory does not list reads as: the reset contents of R40, the font table at
0x050..0x09F and zero elsewhere (log 5; the font bytes: log 4). -/
def resetByte (a : Nat) : Byte :=
  if Config.fontBase ≤ a then fontTable.getD (a - Config.fontBase) 0 else 0

namespace Memory

/-- The byte at address `a` (R68). -/
def read : Memory → Nat → Byte
  | [], a => resetByte a
  | (b, w) :: m, a => if a = b then w else read m a

/-- Put the cell `(a, w)` in front of `m`, unless an unlisted `a` reads as `w` anyway. -/
def consCell (a : Nat) (w : Byte) (m : Memory) : Memory :=
  if w = resetByte a then m else (a, w) :: m

/-- The cells of the bytes `bs` at `a`, `a + 1`, ... -/
def cells (a : Nat) : List Byte → Memory
  | [] => []
  | b :: bs => consCell a b (cells (a + 1) bs)

/-- The bytes `bs` go to `a`, `a + 1`, ..., in ascending order (R64); every other byte stays (R68): the
cells below, the new cells, the cells above. Keeps the canonical form. -/
def writeBytes (m : Memory) (a : Nat) (bs : List Byte) : Memory :=
  m.filter (fun c => decide (c.1 < a)) ++
    (cells a bs ++ m.filter (fun c => decide (a + bs.length ≤ c.1)))

/-- The byte at address `a` becomes `w` (R68). -/
def write (m : Memory) (a : Nat) (w : Byte) : Memory := writeBytes m a [w]

/-- The `n` bytes at `a`, `a + 1`, ... in ascending order (R64). -/
def readBytes (m : Memory) (a : Nat) : Nat → List Byte
  | 0 => []
  | n + 1 => m.read a :: readBytes m (a + 1) n

/-- The canonical form, above a lower bound of the addresses: strictly rising addresses inside the
4096 bytes, and no cell that reads as an unlisted address does. -/
def wfFrom : Nat → Memory → Bool
  | _, [] => true
  | lo, (a, w) :: m => decide (lo ≤ a) && decide (a < Config.memSize) && decide (w ≠ resetByte a) && wfFrom (a + 1) m

/-- Memory is in canonical form. -/
def wf (m : Memory) : Bool := wfFrom 0 m

end Memory

end Sys2Proof.Machine
end

