-- ==== Sys2Proof/Machine/Ops.lean ====
section
/-! DEFINITION. The operations the meanings share: the bounds check, the two faults, reporting a
diagnostic, the fetch, the skip, the wait, the stack, the transfers and the sprite.

TAKING AN EXCEPTION. This engine has no trap entry: "nothing vectors, nothing is saved, nothing
returns" (`60_exceptions.md`, R254, R256, R257). What an exceptional condition does instead is one of
two shared operations: `State.report` (a diagnostic: the instruction is suppressed, control goes to
`A + 2`, R250, R256) and a fault (no successor state, R252, R126). -/

namespace Sys2Proof.Machine

/-! ### Faults -/

/-- The bounds check of R66 over the `len` bytes at `first`, over the integers, before any byte moves:
the lowest offending address, if there is one. No byte, no check (R211: `N = 0` "cannot fault"). -/
def outOfBounds (first len : Nat) : Option Nat :=
  if 0 < len ∧ first + len > Config.memSize then some (max first Config.memSize) else none

/-- Go on with `next` if the `len` bytes at `first` exist; otherwise `MemoryBoundsFault` (R66, R252),
with nothing changed (R126). -/
def checkRange (first len : Nat) (next : State) : Result :=
  match outOfBounds first len with
  | some addr => .fault (.memoryBounds addr)
  | none => .next next

/-- Go on with the state `k` that `next` gives for a key index, if the keypad has it; otherwise
`KeypadIndexFault` (R230, R231, R252). -/
def withKey (value : Byte) (next : Fin 16 → State) : Result :=
  if h : value.toNat < 16 then .next (next ⟨value.toNat, h⟩) else .fault (.keypadIndex value)

/-! ### Diagnostics -/

/-- `report D(info)` (R10, R250, R251): the cycle completes and its output is `d`. Nothing else
changes: nothing is saved, no mode, no handler (R256). -/
def State.report (s : State) (d : Diagnostic) : State := { s with out := .completed d }

/-- `A`, the address the instruction being executed was fetched from: the advance of R121 undone. -/
def State.fetchedFrom (s : State) : Word := s.pc - 2

/-! ### The fetch -/

/-- The word at `PC`, big-endian (R63), where the bounds check of the fetch holds (R66). An odd `PC`
is ordinary (R65). -/
def fetchWord (s : State) : Word :=
  bigEndian (s.mem.read s.pc.toNat) (s.mem.read (s.pc.toNat + 1))

/-- What a cycle does between the fetch and the dispatch (R121): the `PC` advance, with the random
input of this cycle in place (R266) and no diagnostic yet. -/
def State.beginCycle (s : State) (rnd : Option Byte) : State :=
  { s with pc := s.pc + 2, rnd := rnd, out := .completed .none }

/-- The value of the random input in this cycle (R172): the host's byte where the run says it, the
next free draw otherwise (log 1). -/
def State.rndValue (s : State) : Byte := s.rnd.getD (Config.freeRnd s.rndIndex)

/-- The draw is used up: the next free draw is another one (log 1). -/
def State.nextDraw (s : State) : State := { s with rndIndex := s.rndIndex + 1 }

/-! ### Control -/

/-- A skip, on the advanced `PC` (R148). -/
def State.skipIf (s : State) (c : Bool) : State := if c then s.writePc (s.pc + 2) else s

/-- `PC` back to `A`, so that the instruction is executed again (R232). -/
def State.again (s : State) : State := s.writePc (s.pc - 2)

/-- `Push(v)` (R29), where the stack is not full. -/
def State.push (s : State) (w : Word) (h : s.sp.val < 12) : State :=
  { s with stack := s.stack.set s.sp.val w, sp := ⟨s.sp.val + 1, by omega⟩ }

/-- `Pop()` (R29), where the stack is not empty: the depth goes down. The slot keeps its content. -/
def State.pop (s : State) : State := { s with sp := ⟨s.sp.val - 1, by omega⟩ }

/-- The value `Pop()` returns, `S[SP − 1]` (R29). -/
def State.top (s : State) (h : 0 < s.sp.val) : Word := s.stack[s.sp.val - 1]'(by omega)

/-! ### The other registers -/

/-- `KW <- k` (R36). -/
def State.writeKw (s : State) (k : Latch) : State := { s with kw := k }

/-- `DT <- b` (R30). -/
def State.writeDt (s : State) (b : Byte) : State := { s with dt := b }

/-- `ST <- b` (R30). -/
def State.writeSt (s : State) (b : Byte) : State := { s with st := b }

/-- The framebuffer becomes `fb`, and `DIRTY` is set, changed or not (R33). -/
def State.writeFb (s : State) (fb : FrameBuffer) : State := { s with fb := fb, dirty := true }

/-- The bytes `bs` go to `a`, `a + 1`, ... (R64). -/
def State.store (s : State) (a : Nat) (bs : List Byte) : State := { s with mem := s.mem.writeBytes a bs }

/-! ### Transfers -/

/-- The three decimal digits of a byte, hundreds first (R193). -/
def bcdDigits (b : Byte) : List Byte :=
  [BitVec.ofNat 8 (b.toNat / 100), BitVec.ofNat 8 (b.toNat / 10 % 10), BitVec.ofNat 8 (b.toNat % 10)]

/-- `V[0..n-1]` in order, the bytes FX55 stores (R194). -/
def State.firstRegs (s : State) (n : Nat) : List Byte := s.v.toList.take n

/-- The registers after `V[0..n-1]` are loaded from `a`, `a + 1`, ... (R195). -/
def loadRegs (m : Memory) (a : Nat) (v : Vector Byte 16) : Nat → Vector Byte 16
  | 0 => v
  | n + 1 => (loadRegs m a v n).setIfInBounds n (m.read (a + n))

/-- `V[0..n-1]` loaded from `a`, `a + 1`, ... (R195). -/
def State.loadFirst (s : State) (a n : Nat) : State := { s with v := loadRegs s.mem a s.v n }

/-- `I` past the last byte of an `n`-byte transfer, modulo 2^16 (R194, R195). -/
def State.advanceI (s : State) (n : Nat) : State := s.writeI (s.i + BitVec.ofNat 16 n)

/-! ### The sprite (R211) -/

/-- A drawing in progress: the framebuffer and the collision seen so far. -/
structure Drawing where
  fb  : FrameBuffer
  hit : Bool
  deriving DecidableEq, Repr

/-- One sprite bit that is 1 lands on pixel `(x, y)`: a set pixel is a collision, and the pixel is
inverted. Columns right of the edge are dropped. -/
def Drawing.plot (d : Drawing) (x y : Nat) : Drawing :=
  if x ≤ 63 then ⟨d.fb.flip x y, d.hit || d.fb.pixel x y⟩ else d

/-- The columns `0..n-1` of one sprite row; bit 7 of the row is its leftmost pixel. -/
def Drawing.columns (d : Drawing) (row : Byte) (x0 y : Nat) : Nat → Drawing
  | 0 => d
  | c + 1 =>
    let e := d.columns row x0 y c
    if row.getLsbD (7 - c) then e.plot (x0 + c) y else e

/-- The rows `0..n-1` of the sprite at `a`; rows below the bottom edge are dropped. -/
def Drawing.rows (d : Drawing) (m : Memory) (a x0 y0 : Nat) : Nat → Drawing
  | 0 => d
  | r + 1 =>
    let e := d.rows m a x0 y0 r
    if y0 + r ≤ 31 then e.columns (m.read (a + r)) x0 (y0 + r) 8 else e

end Sys2Proof.Machine
end

