-- ==== Sys2Proof/Machine/Alu.lean ====
section
/-! DEFINITION. Register load, arithmetic, logic, shifts and random (`42_alu.md`): 6XNN, 7XNN, 8XY0 to
8XY7, 8XYE, CXNN. None of them touches memory, reports or faults. -/

namespace Sys2Proof.Machine

/-- 6XNN (R161). -/
def execLdImm (x : Reg) (nn : Byte) (s : State) : Result := .next (s.writeV x nn)

/-- 7XNN (R162): wraps, and VF is not written as a flag. -/
def execAddImm (x : Reg) (nn : Byte) (s : State) : Result := .next (s.writeV x (add8 (s.readV x) nn))

/-- 8XY0 (R163). -/
def execLdReg (x y : Reg) (s : State) : Result := .next (s.writeV x (s.readV y))

/-- 8XY1 (R164): VF becomes 0. -/
def execOr (x y : Reg) (s : State) : Result := .next (s.writeVFlag x (s.readV x ||| s.readV y) false)

/-- 8XY2 (R165): VF becomes 0. -/
def execAnd (x y : Reg) (s : State) : Result := .next (s.writeVFlag x (s.readV x &&& s.readV y) false)

/-- 8XY3 (R166): VF becomes 0. -/
def execXor (x y : Reg) (s : State) : Result := .next (s.writeVFlag x (s.readV x ^^^ s.readV y) false)

/-- 8XY4 (R167). -/
def execAddReg (x y : Reg) (s : State) : Result :=
  .next (s.writeVFlag x (add8 (s.readV x) (s.readV y)) (carry (s.readV x) (s.readV y)))

/-- 8XY5 (R168). -/
def execSub (x y : Reg) (s : State) : Result :=
  .next (s.writeVFlag x (sub8 (s.readV x) (s.readV y)) (noBorrow (s.readV x) (s.readV y)))

/-- 8XY6 (R169): the source is `Vy`; the old `Vx` plays no part. -/
def execShr (x y : Reg) (s : State) : Result :=
  .next (s.writeVFlag x (shr1 (s.readV y)) (lostRight (s.readV y)))

/-- 8XY7 (R170). -/
def execSubn (x y : Reg) (s : State) : Result :=
  .next (s.writeVFlag x (sub8 (s.readV y) (s.readV x)) (noBorrow (s.readV y) (s.readV x)))

/-- 8XYE (R171): the source is `Vy`; the old `Vx` plays no part. -/
def execShl (x y : Reg) (s : State) : Result :=
  .next (s.writeVFlag x (shl1 (s.readV y)) (lostLeft (s.readV y)))

/-- CXNN (R172): the random input of this cycle, which is a free value where the host's byte is not
said (log 1); the draw is used up. -/
def execRnd (x : Reg) (nn : Byte) (s : State) : Result :=
  .next (s.nextDraw.writeV x (s.rndValue &&& nn))

end Sys2Proof.Machine
end

