-- ==== Sys2Proof/Machine/Display.lean ====
section
/-! DEFINITION. The display instructions (`44_display.md`): 00E0, DXYN. -/

namespace Sys2Proof.Machine

/-- 00E0 (R210): every pixel off, `DIRTY` set whether or not a pixel changed; VF not written. -/
def execCls (s : State) : Result := .next (s.writeFb (Vector.replicate 32 0))

/-- The drawing of DXYN: the start position wraps, the body is clipped; the coordinates are read before
VF is cleared (R211). -/
def State.sprite (s : State) (x y : Reg) (n : BitVec 4) : Drawing :=
  Drawing.rows ⟨s.fb, false⟩ s.mem s.i.toNat ((s.readV x).toNat % 64) ((s.readV y).toNat % 32) n.toNat

/-- DXYN (R211): all `n` bytes are bounds-checked, clipped or not; VF is the collision; `DIRTY` is set
always. -/
def execDrw (x y : Reg) (n : BitVec 4) (s : State) : Result :=
  checkRange s.i.toNat n.toNat
    ((s.writeV vf (flagByte (s.sprite x y n).hit)).writeFb (s.sprite x y n).fb)

end Sys2Proof.Machine
end

