-- ==== Sys2Proof/Machine/Flow.lean ====
section
/-! DEFINITION. Control transfer (`41_flow.md`): 00EE, 1NNN, 2NNN, BNNN, 3XNN, 4XNN, 5XY0, 9XY0. Every
meaning runs with `PC` already advanced (R121). No target is checked when it is written (R149). -/

namespace Sys2Proof.Machine

/-- 00EE (R140). An empty stack is reported, and nothing is popped and no jump made. -/
def execRet (s : State) : Result :=
  if h : 0 < s.sp.val then .next (s.pop.writePc (s.top h))
  else .next (s.report (.stackUnderflow (encode .ret) s.fetchedFrom))

/-- 1NNN (R141). -/
def execJp (nnn : BitVec 12) (s : State) : Result := .next (s.writePc (zextNNN nnn))

/-- 2NNN (R142). The pushed value is the advanced `PC`. A full stack is reported, and nothing is pushed
and no jump made. -/
def execCall (nnn : BitVec 12) (s : State) : Result :=
  if h : s.sp.val < 12 then .next ((s.push s.pc h).writePc (zextNNN nnn))
  else .next (s.report (.stackOverflow (encode (.call nnn)) s.fetchedFrom))

/-- BNNN (R143): always `V0`, modulo 2^16. -/
def execJpV0 (nnn : BitVec 12) (s : State) : Result :=
  .next (s.writePc (zext16 (s.readV 0) + zextNNN nnn))

/-- 3XNN (R144). -/
def execSeImm (x : Reg) (nn : Byte) (s : State) : Result := .next (s.skipIf (s.readV x == nn))

/-- 4XNN (R145). -/
def execSneImm (x : Reg) (nn : Byte) (s : State) : Result := .next (s.skipIf (s.readV x != nn))

/-- 5XY0 (R146). -/
def execSeReg (x y : Reg) (s : State) : Result := .next (s.skipIf (s.readV x == s.readV y))

/-- 9XY0 (R147). -/
def execSneReg (x y : Reg) (s : State) : Result := .next (s.skipIf (s.readV x != s.readV y))

end Sys2Proof.Machine
end

