-- ==== Sys2Proof/Machine/Index.lean ====
section
/-! DEFINITION. The address register and the memory transfers (`43_index_memory.md`): ANNN, FX1E, FX29,
FX33, FX55, FX65. One addressing mode: `I` plus an ascending byte offset (R196). -/

namespace Sys2Proof.Machine

/-- ANNN (R190). -/
def execLdI (nnn : BitVec 12) (s : State) : Result := .next (s.writeI (zextNNN nnn))

/-- FX1E (R191): modulo 2^16, no mask, VF not written. -/
def execAddI (x : Reg) (s : State) : Result := .next (s.writeI (s.i + zext16 (s.readV x)))

/-- FX29 (R192): five times `Vx`, no base added, no mask. -/
def execLdF (x : Reg) (s : State) : Result := .next (s.writeI (5 * zext16 (s.readV x)))

/-- FX33 (R193): the three digits of `Vx` at `I`, `I + 1`, `I + 2`; `I` stays. -/
def execLdB (x : Reg) (s : State) : Result :=
  checkRange s.i.toNat 3 (s.store s.i.toNat (bcdDigits (s.readV x)))

/-- FX55 (R194): `V[0..x]` at `I`, ..., and `I` advanced by `x + 1`. -/
def execDump (x : Reg) (s : State) : Result :=
  checkRange s.i.toNat (x.val + 1) ((s.store s.i.toNat (s.firstRegs (x.val + 1))).advanceI (x.val + 1))

/-- FX65 (R195): `V[0..x]` from `I`, ..., and `I` advanced by `x + 1`. -/
def execLoad (x : Reg) (s : State) : Result :=
  checkRange s.i.toNat (x.val + 1) ((s.loadFirst s.i.toNat (x.val + 1)).advanceI (x.val + 1))

end Sys2Proof.Machine
end

