-- ==== Sys2Proof/Machine/Keypad.lean ====
section
/-! DEFINITION. The keypad and timer instructions (`45_keypad_timers.md`): EX9E, EXA1, FX0A, FX07, FX15,
FX18. A cycle never ticks a timer and never writes `KEY` (R130). -/

namespace Sys2Proof.Machine

/-- EX9E (R230): the level of the key in this cycle. -/
def execSkp (x : Reg) (s : State) : Result := withKey (s.readV x) fun k => s.skipIf s.key[k]

/-- EXA1 (R231). -/
def execSknp (x : Reg) (s : State) : Result := withKey (s.readV x) fun k => s.skipIf (!s.key[k])

/-- FX0A (R232): the four rows of its state table. While it waits, `PC` is put back to `A`. -/
def execLdVxK (x : Reg) (s : State) : Result :=
  match s.kw with
  | .idle =>
    match leastPressed s.key with
    | some k => .next (s.again.writeKw (.latched k))
    | none => .next s.again
  | .latched k =>
    if s.key[k] then .next s.again
    else .next ((s.writeV x (BitVec.ofNat 8 k.val)).writeKw .idle)

/-- FX07 (R233). -/
def execLdVxDt (x : Reg) (s : State) : Result := .next (s.writeV x s.dt)

/-- FX15 (R234). -/
def execLdDtVx (x : Reg) (s : State) : Result := .next (s.writeDt (s.readV x))

/-- FX18 (R235). -/
def execLdStVx (x : Reg) (s : State) : Result := .next (s.writeSt (s.readV x))

end Sys2Proof.Machine
end

