-- ==== Sys2Proof/Machine/HostEvents.lean ====
section
/-! DEFINITION. The host's events other than the cycle (`60_exceptions.md` R262; `70_reset_and_hazards.md`
R300, R302). Each is atomic and lands between cycles (R270). -/

namespace Sys2Proof.Machine

/-- The state of R40 with this font table at 0x050..0x09F (R300, R41). -/
def State.resetWith (font : Vector Byte 80) : State :=
  { State.reset with mem := Memory.writeBytes [] Config.fontBase font.toList }

/-- `RESET` (R300): every piece of the spec's state at its reset value, from any state. What is not the
engine's stays: the host's coming events, and the number of the next free draw, so that no draw is
used twice (log 10). -/
def State.resetEvent (s : State) (font : Vector Byte 80) : State :=
  { State.resetWith font with host := s.host, rndIndex := s.rndIndex }

/-- `LOAD(bytes)` (R302, R303): the image at 0x200 and `PC`, and nothing else; on `LoadError` nothing
at all. -/
def State.loadEvent (s : State) (bytes : List Byte) : State :=
  if imageWellFormed bytes then
    { s with mem := s.mem.writeBytes Config.progBase bytes
             pc := BitVec.ofNat 16 Config.progBase
             out := .loaded .none }
  else { s with out := .loaded (.loadError bytes.length) }

/-- A timer after one tick, floored at 0 (R258). -/
def tickDown (t : Byte) : Byte := if t.toNat > 0 then t - 1 else t

/-- `TICK` (R258): both timers, each on its own. -/
def State.tickEvent (s : State) : State :=
  { s with dt := tickDown s.dt, st := tickDown s.st, out := .quiet }

/-- `KEYWRITE(k, b)` (R265): that key and nothing else. -/
def State.keyWriteEvent (s : State) (k : Fin 16) (b : Bool) : State :=
  { s with key := s.key.set k b, out := .quiet }

/-- `REDRAW?` (R263): the old dirty flag is the answer, and it is cleared. -/
def State.redrawEvent (s : State) : State := { s with dirty := false, out := .redraw s.dirty }

/-- The `audible` output, `ST ≠ 0` (R31, R261). -/
def State.audible (s : State) : Bool := s.st != 0

/-- Read `audible` (R261): the engine does not change. -/
def State.audibleEvent (s : State) : State := { s with out := .audible s.audible }

/-- Read `FB` (R264): the engine does not change. -/
def State.frameEvent (s : State) : State := { s with out := .frame s.fb }

end Sys2Proof.Machine
end

