-- ==== Sys2Proof/Machine/Cycle.lean ====
section
/-! DEFINITION. One cycle (`40_cycle.md` R121) and one event of the host (`60_exceptions.md` R262). -/

namespace Sys2Proof.Machine

/-- What a fetched word does: its instruction, or, for an illegal word, `DecodeError(op, A)` and nothing
else (R122, R123). The state is the one after the `PC` advance. -/
def execWord (op : Word) (s : State) : Result :=
  match decodeWord op with
  | some i => exec i s
  | none => .next (s.report (.decodeError op s.fetchedFrom))

/-- `CYCLE(rnd)` (R121): fetch, advance, dispatch. The bounds of the fetch are checked first (R255), and
a cycle that faults has no successor state (R126). -/
def cycle (rnd : Option Byte) (s : State) : Result :=
  match outOfBounds s.pc.toNat 2 with
  | some addr => .fault (.memoryBounds addr)
  | none => execWord (fetchWord s) (s.beginCycle rnd)

/-- One event of the host (R262). -/
def event (e : HostEvent) (s : State) : Result :=
  match e with
  | .reset font => .next (s.resetEvent font)
  | .load bytes => .next (s.loadEvent bytes)
  | .cycle rnd => cycle (some rnd) s
  | .tick => .next s.tickEvent
  | .keyWrite k b => .next (s.keyWriteEvent k b)
  | .redrawQuery => .next s.redrawEvent
  | .readFb => .next s.frameEvent
  | .readAudible => .next s.audibleEvent

/-- The next event: the head of the host's list, or, where the list is empty, a `CYCLE` whose random
byte the run does not say (log 1, log 2). -/
def nextEvent (s : State) : Result :=
  match s.host with
  | [] => cycle none s
  | e :: rest => event e { s with host := rest }

/-- Where `withFetchWord` puts the word: at `PC` if the fetch from `PC` exists, else at the program area
(log 11). -/
def fetchPlace (s : State) : Word :=
  match outOfBounds s.pc.toNat 2 with
  | some _ => BitVec.ofNat 16 Config.progBase
  | none => s.pc

/-- The state with the word `op` where the next cycle fetches it, and the cycle the next event (log 11). -/
def placeWord (s : State) (op : Word) : State :=
  { s with mem := s.mem.writeBytes (fetchPlace s).toNat [highByte op, lowByte op]
           pc := fetchPlace s
           host := [] }

end Sys2Proof.Machine
end

