-- ==== Sys2Proof/Machine/Step.lean ====
section
/-! DEFINITION. The step of the machine: one event (`60_exceptions.md` R262, R270). -/

namespace Sys2Proof.Machine

/-- One step: the next event of the host, by default a cycle (`40_cycle.md` R120). -/
def step (s : State) : Host.Outcome State Fault Refusal := nextEvent s

/-- `s` with the instruction whose bits are `w` where the next step fetches it (log 11). Every row of the
opcode table has 16 bits (R90). -/
def State.withFetchWord (s : State) (nbits w : Nat) : State :=
  placeWord s (BitVec.ofNat 16 (w % 2 ^ nbits))

end Sys2Proof.Machine
end

