-- ==== Sys2Proof/Safety.lean ====
section
/-! DEFINITION. The terms the claims are stated in: the parts of the state and what it is for one to be
unchanged (`40_cycle.md` R130), the write list of each instruction, the conditions of the faults and
the diagnostics (`60_exceptions.md` R250, R252, R255), and the invariant of the machine. -/

namespace Sys2Proof.Machine

/-! ### Parts of the state, and frames -/

/-- One piece of the state of `10_state.md` R20, or one of the model's own fields. -/
inductive Part where
  | v (x : Reg)
  | i
  | pc
  | slot (j : Fin 12)
  | sp
  | dt
  | st
  | pixel (x : Fin 64) (y : Fin 32)
  | dirty
  | key (k : Fin 16)
  | kw
  | byte (a : Nat)
  | out
  | host
  | rnd
  | rndIndex
  deriving DecidableEq, Repr

/-- The part reads the same in `t` as in `s`. -/
def Part.same (s t : State) : Part → Prop
  | .v x => t.readV x = s.readV x
  | .i => t.i = s.i
  | .pc => t.pc = s.pc
  | .slot j => t.stack[j] = s.stack[j]
  | .sp => t.sp = s.sp
  | .dt => t.dt = s.dt
  | .st => t.st = s.st
  | .pixel x y => t.fb.pixel x.val y.val = s.fb.pixel x.val y.val
  | .dirty => t.dirty = s.dirty
  | .key k => t.key[k] = s.key[k]
  | .kw => t.kw = s.kw
  | .byte a => t.mem.read a = s.mem.read a
  | .out => t.out = s.out
  | .host => t.host = s.host
  | .rnd => t.rnd = s.rnd
  | .rndIndex => t.rndIndex = s.rndIndex

/-- The part is state of the spec (R20), not a field of the model's own. -/
def Part.ofSpec : Part → Prop
  | .out | .host | .rnd | .rndIndex => False
  | _ => True

/-- Everything outside `writes` is the same in `t` as in `s` (R130). -/
def Frame (writes : Part → Prop) (s t : State) : Prop := ∀ p : Part, ¬ writes p → p.same s t

/-! ### The write lists -/

/-- The parts an instruction may write in state `s` (with `PC` already advanced), from the "Writes" line
of its rule. The report of a suppressed call or return is its only effect (R140, R142). -/
def writesOf (ins : Instr) (s : State) (p : Part) : Prop :=
  match ins with
  | .cls => p = .dirty ∨ ∃ x y, p = .pixel x y
  | .ret => if 0 < s.sp.val then p = .pc ∨ p = .sp else p = .out
  | .jp _ => p = .pc
  | .call _ => if h : s.sp.val < 12 then p = .pc ∨ p = .sp ∨ p = .slot ⟨s.sp.val, h⟩ else p = .out
  | .seImm _ _ | .sneImm _ _ | .seReg _ _ | .sneReg _ _ => p = .pc
  | .ldImm x _ | .addImm x _ | .ldReg x _ => p = .v x
  | .or x _ | .and x _ | .xor x _ => p = .v x ∨ p = .v vf
  | .addReg x _ | .sub x _ | .shr x _ | .subn x _ | .shl x _ => p = .v x ∨ p = .v vf
  | .ldI _ => p = .i
  | .jpV0 _ => p = .pc
  | .rnd x _ => p = .v x ∨ p = .rndIndex
  | .drw x y n => p = .v vf ∨ p = .dirty ∨ ∃ (px : Fin 64) (py : Fin 32), p = .pixel px py ∧
      (s.readV x).toNat % 64 ≤ px.val ∧ px.val < (s.readV x).toNat % 64 + 8 ∧
      (s.readV y).toNat % 32 ≤ py.val ∧ py.val < (s.readV y).toNat % 32 + n.toNat
  | .skp _ | .sknp _ => p = .pc
  | .ldVxDt x => p = .v x
  | .ldVxK x => match s.kw with
    | .idle => p = .pc ∨ p = .kw
    | .latched k => if s.key[k] then p = .pc else p = .v x ∨ p = .kw
  | .ldDtVx _ => p = .dt
  | .ldStVx _ => p = .st
  | .addI _ | .ldF _ => p = .i
  | .ldB _ => ∃ a, p = .byte a ∧ s.i.toNat ≤ a ∧ a < s.i.toNat + 3
  | .dump x => p = .i ∨ ∃ a, p = .byte a ∧ s.i.toNat ≤ a ∧ a ≤ s.i.toNat + x.val
  | .load x => p = .i ∨ ∃ k : Reg, p = .v k ∧ k.val ≤ x.val

/-! ### When a cycle faults and what it reports -/

/-- The fault of an instruction in state `s`, if its condition holds (R252, the table of R66). -/
def instrFault (ins : Instr) (s : State) : Option Fault :=
  match ins with
  | .drw _ _ n =>
    if 0 < n.toNat ∧ s.i.toNat + n.toNat - 1 > 0xFFF then some (.memoryBounds (max s.i.toNat 0x1000)) else none
  | .ldB _ => if s.i.toNat + 2 > 0xFFF then some (.memoryBounds (max s.i.toNat 0x1000)) else none
  | .dump x | .load x =>
    if s.i.toNat + x.val > 0xFFF then some (.memoryBounds (max s.i.toNat 0x1000)) else none
  | .skp x | .sknp x => if (s.readV x).toNat > 15 then some (.keypadIndex (s.readV x)) else none
  | _ => none

/-- The instruction the next cycle executes, if the fetch exists and the word is legal. -/
def State.nextInstr (s : State) : Option Instr :=
  if s.pc.toNat ≤ 0xFFE then decodeWord (fetchWord s) else none

/-- The fault of the next cycle, if any: the fetch first, then the instruction's own condition (R255). -/
def State.faultOf (s : State) : Option Fault :=
  if s.pc.toNat > 0xFFE then some (.memoryBounds (max s.pc.toNat 0x1000))
  else match decodeWord (fetchWord s) with
    | some i => instrFault i s
    | none => none

/-- The diagnostic of the next cycle if it completes (R250): at most one, with the fetched word and the
address it was fetched from. -/
def State.diagnosticOf (s : State) : Diagnostic :=
  match decodeWord (fetchWord s) with
  | none => .decodeError (fetchWord s) s.pc
  | some (.call _) => if s.sp.val = 12 then .stackOverflow (fetchWord s) s.pc else .none
  | some .ret => if s.sp.val = 0 then .stackUnderflow (fetchWord s) s.pc else .none
  | some _ => .none

/-- `PC` after the next cycle, if it completes: the table of R26, with `A` the address of the
instruction. -/
def State.pcAfter (s : State) : Word :=
  let skip (c : Bool) : Word := if c then s.pc + 4 else s.pc + 2
  match decodeWord (fetchWord s) with
  | some (.jp nnn) => zextNNN nnn
  | some (.call nnn) => if s.sp.val = 12 then s.pc + 2 else zextNNN nnn
  | some .ret => if h : s.sp.val = 0 then s.pc + 2 else s.stack[s.sp.val - 1]'(by omega)
  | some (.jpV0 nnn) => zext16 (s.readV 0) + zextNNN nnn
  | some (.seImm x nn) => skip (s.readV x == nn)
  | some (.sneImm x nn) => skip (s.readV x != nn)
  | some (.seReg x y) => skip (s.readV x == s.readV y)
  | some (.sneReg x y) => skip (s.readV x != s.readV y)
  | some (.skp x) => skip (s.key.getD (s.readV x).toNat false)
  | some (.sknp x) => skip (!s.key.getD (s.readV x).toNat false)
  | some (.ldVxK _) => match s.kw with
    | .idle => s.pc
    | .latched k => if s.key[k] then s.pc else s.pc + 2
  | _ => s.pc + 2

/-! ### The sprite in closed form -/

/-- The sprite of DXYN has a 1 bit on pixel `(px, py)`, in the rectangle of 8 columns and `n` rows at
`(x0, y0)` that does not wrap; bit 7 of a row is its leftmost pixel (R211). -/
def spriteBit (m : Memory) (a x0 y0 n px py : Nat) : Prop :=
  x0 ≤ px ∧ px < x0 + 8 ∧ y0 ≤ py ∧ py < y0 + n ∧ (m.read (a + (py - y0))).getLsbD (7 - (px - x0)) = true

/-! ### Running a list of instructions, and a number of ticks -/

/-- The instructions one after another, each as `exec` gives it, stopping at the first that stops. -/
def execAll : List Instr → State → Result
  | [], s => .next s
  | i :: is, s =>
    match exec i s with
    | .next t => execAll is t
    | .fault f => .fault f
    | .refused r => .refused r

/-- `n` ticks, each an event of the host (R258). -/
def tickAll : Nat → State → Result
  | 0, s => .next s
  | n + 1, s =>
    match event .tick s with
    | .next t => tickAll n t
    | .fault f => .fault f
    | .refused r => .refused r

/-! ### The invariant -/

/-- The slots in use hold return addresses that a call can push: 0x0002 to 0x1000 (R140). -/
def State.StackInv (s : State) : Prop :=
  ∀ j : Fin 12, j.val < s.sp.val → 2 ≤ s.stack[j].toNat ∧ s.stack[j].toNat ≤ 0x1000

/-- The invariant of the machine: memory in canonical form, which lists no address beyond the 4096 bytes
(R60, log 5), and the slots in use as a call leaves them (R140). -/
def State.Inv (s : State) : Prop := Memory.wf s.mem = true ∧ s.StackInv

end Sys2Proof.Machine
end

