-- ==== Sys2Proof/Certificates/Slice0/Obligations.lean ====
section
/-! DEFINITION. The statements for the provers, one `def Obligations.<Name> : Prop` each, with the rule of
spec/ it formalises. `Frame writes s t` says that everything outside `writes` is unchanged
(`40_cycle.md` R130); a meaning runs on the state after the `PC` advance of R121. -/

open Sys2Proof Sys2Proof.Machine

/-! ### Encoding -/

/-- Words written out from the patterns of R94 decode to the instructions they stand for, one or more of
each family; the document's own illegal word 0x0000 and a malformed 5XYN decode to none. -/
def Obligations.SpecWordsDecode : Prop :=
  decodeWord 0b0000000011100000 = some .cls ∧
  decodeWord 0b0010001100000000 = some (.call 0x300) ∧
  decodeWord 0b0011001000010000 = some (.seImm 2 0x10) ∧
  decodeWord 0b1000000100100101 = some (.sub 1 2) ∧
  decodeWord 0b1101000000010011 = some (.drw 0 1 3) ∧
  decodeWord 0b1110001110011110 = some (.skp 3) ∧
  decodeWord 0b1111001001010101 = some (.dump 2) ∧
  decodeWord 0x0000 = none ∧ decodeWord 0x5121 = none

/-- Decoding the word of an instruction gives the instruction back, whatever its operands, and so does
decoding its two bytes with any bytes after them. -/
def Obligations.DecodeInvertsEncode : Prop :=
  ∀ i : Instr, decodeWord (encode i) = some i ∧
    ∀ rest : List Byte, decode (encodeBytes i ++ rest) = .ok (i, rest)

/-- A word that decodes to an instruction is the word of that instruction: no bit of it is ignored. -/
def Obligations.EncodeInvertsDecode : Prop :=
  ∀ (op : Word) (i : Instr), decodeWord op = some i → encode i = op

/-- R94: a word is a row's instruction exactly when `op AND mask = match`; the map has 34 rows and no two
of them overlap. -/
def Obligations.OpcodeMapSelectsTheDecodedRow : Prop :=
  opcodeTable.length = 34 ∧
  (∀ (op : Word) (r : OpcodeRow), r ∈ opcodeTable →
    (r.selects op = true ↔ ∃ i, decodeWord op = some i ∧ i.row = r)) ∧
  (∀ (op : Word) (r q : OpcodeRow), r ∈ opcodeTable → q ∈ opcodeTable →
    r.selects op = true → q.selects op = true → r = q)

/-- Which words are illegal, group by group (R95, R96, R97, R99). -/
def Obligations.IllegalWordsByGroup : Prop :=
  ∀ op : Word, decodeWord op = none ↔
    (fieldG op = 0x0 ∧ op ≠ 0x00E0 ∧ op ≠ 0x00EE) ∨
    (fieldG op = 0x5 ∧ fieldN op ≠ 0) ∨
    (fieldG op = 0x8 ∧ fieldN op ∈ [0x8, 0x9, 0xA, 0xB, 0xC, 0xD, 0xF]) ∨
    (fieldG op = 0x9 ∧ fieldN op ≠ 0) ∨
    (fieldG op = 0xE ∧ fieldNN op ∉ [0x9E, 0xA1]) ∨
    (fieldG op = 0xF ∧ fieldNN op ∉ [0x07, 0x0A, 0x15, 0x18, 0x1E, 0x29, 0x33, 0x55, 0x65])

/-! ### The cycle -/

/-- R121 and the model's step: where the two bytes at `PC`, the lower address high, decode to `i`, a step
whose event is a cycle is `exec i` on the state with `PC` advanced by 2 (log 2: an empty list of host
events means a cycle whose random byte is free; log 1, log 3: the fields `rnd` and `out`). -/
def Obligations.StepRunsTheFetchedInstruction : Prop :=
  ∀ (s : State) (i : Instr), s.pc.toNat ≤ 0xFFE →
    decodeWord (bigEndian (s.mem.read s.pc.toNat) (s.mem.read (s.pc.toNat + 1))) = some i →
    (s.host = [] →
      step s = exec i { s with pc := s.pc + 2, rnd := none, out := .completed .none }) ∧
    (∀ r rest, s.host = .cycle r :: rest →
      step s = exec i { s with pc := s.pc + 2, rnd := some r, out := .completed .none, host := rest })

/-- R123: an illegal word completes with `DecodeError(op, A)` and changes nothing but `PC`, which becomes
`A + 2` (the spec's decision D5, log 7). -/
def Obligations.IllegalWordOnlyAdvancesPc : Prop :=
  ∀ (r : Option Byte) (s : State), s.pc.toNat ≤ 0xFFE → decodeWord (fetchWord s) = none →
    ∃ t, cycle r s = .next t ∧ t.pc = s.pc + 2 ∧
      t.out = .completed (.decodeError (fetchWord s) s.pc) ∧
      Frame (fun p => p = .pc ∨ p = .out ∨ p = .rnd) s t

/-- R252 and the table of R66: a cycle faults exactly when the fetch is beyond memory, or the word decodes
to DXYN, FX33, FX55, FX65 with a byte beyond memory, or to EX9E, EXA1 with `Vx > 15`, with the value
the rule records; otherwise it completes. The two faults are the spec's decisions D2 and D13. -/
def Obligations.CycleFaultsExactlyOnItsConditions : Prop :=
  ∀ (r : Option Byte) (s : State),
    (∀ f, cycle r s = .fault f ↔ s.faultOf = some f) ∧
    (s.faultOf = none → ∃ t, cycle r s = .next t) ∧
    (∀ a, Fault.code (.memoryBounds a) = 5) ∧ (∀ v, Fault.code (.keypadIndex v) = 6)

/-- R124: a cycle completes, with exactly the diagnostic R250 gives it, never `LoadError`, or it faults with
one of the two faults (the spec's decisions D2, D13, D20). -/
def Obligations.CycleHasOneOfTwoOutcomes : Prop :=
  ∀ (r : Option Byte) (s : State),
    ((∃ t, cycle r s = .next t ∧ t.out = .completed s.diagnosticOf) ∨
      (∃ a, cycle r s = .fault (.memoryBounds a)) ∨ (∃ v, cycle r s = .fault (.keypadIndex v))) ∧
    (∀ len, s.diagnosticOf ≠ .loadError len)

/-- R26, which the spec derives from R25 and the instruction rules: `PC` after every cycle that completes. -/
def Obligations.PcAfterTheCycle : Prop :=
  ∀ (r : Option Byte) (s t : State), cycle r s = .next t → t.pc = s.pcAfter

/-- Every instruction completes in every state in which its own fault condition does not hold, and faults
with that fault where it does. -/
def Obligations.InstructionCompletesUnlessItsFaultHolds : Prop :=
  ∀ (i : Instr) (s : State),
    (instrFault i s = none → ∃ t, exec i s = .next t) ∧
    (∀ f, instrFault i s = some f → exec i s = .fault f)

/-- R127: the cycle is a function of the state and `rnd`, and `rnd` matters only when `op[15:12] = 0xC`:
with any other word, two cycles that differ in `rnd` alone end alike. -/
def Obligations.RandomInputMattersOnlyToRandom : Prop :=
  ∀ (r q : Option Byte) (s : State), s.pc.toNat > 0xFFE ∨ fieldG (fetchWord s) ≠ 0xC →
    (∀ t, cycle r s = .next t → cycle q s = .next { t with rnd := q }) ∧
    (∀ f, cycle r s = .fault f → cycle q s = .fault f)

/-- R130, which the spec derives from the dispatch table: an instruction changes only what its rule lists under "writes"; in particular none changes `KEY`,
none but FX15 and FX18 a timer, none but 00E0 and DXYN `FB` or `DIRTY`, none but FX0A `KW`, none but
2NNN and 00EE the stack. -/
def Obligations.InstructionWritesOnlyItsList : Prop :=
  ∀ (i : Instr) (s t : State), exec i s = .next t →
    Frame (writesOf i s) s t ∧
    t.key = s.key ∧
    (t.dt ≠ s.dt → ∃ x, i = .ldDtVx x) ∧ (t.st ≠ s.st → ∃ x, i = .ldStVx x) ∧
    (t.fb ≠ s.fb ∨ t.dirty ≠ s.dirty → i = .cls ∨ ∃ x y n, i = .drw x y n) ∧
    (t.kw ≠ s.kw → ∃ x, i = .ldVxK x) ∧
    (t.stack ≠ s.stack ∨ t.sp ≠ s.sp → i = .ret ∨ ∃ nnn, i = .call nnn)

/-- The invariant holds after reset. -/
def Obligations.ResetStateHasTheInvariant : Prop := State.Inv State.reset

/-- Every step, whatever event it is, keeps the invariant: memory in canonical form, and the stack slots in
use between 0x0002 and 0x1000 (R140). -/
def Obligations.StepKeepsTheInvariant : Prop :=
  ∀ s t : State, s.Inv → step s = .next t → t.Inv

/-- R300, R40: `RESET`, from any state and with any font table, puts every piece of the spec's state at its
reset value (the last three rows of R40 are the spec's decision D19); `State.reset` is the reset with the
default table, whose bytes the spec takes from general knowledge (log 4). -/
def Obligations.ResetSetsEveryPieceOfState : Prop :=
  ∀ (s : State) (font : Vector Byte 80), ∃ t, event (.reset font) s = .next t ∧
    (∀ x, t.readV x = 0) ∧ t.i = 0 ∧ t.pc = 0x200 ∧ (∀ j : Fin 12, t.stack[j] = 0) ∧ t.sp = 0 ∧
    t.dt = 0 ∧ t.st = 0 ∧ t.audible = false ∧
    (∀ (x : Fin 64) (y : Fin 32), t.fb.pixel x.val y.val = false) ∧ t.dirty = false ∧
    (∀ k : Fin 16, t.key[k] = false) ∧ t.kw = .idle ∧
    (∀ a, t.mem.read a = if h : 0x50 ≤ a ∧ a < 0xA0 then font[a - 0x50]'(by omega) else 0) ∧
    (font.toList = fontTable → t.mem = State.reset.mem)

/-- R34: no instruction writes `KEY`, and a step changes it only when its event is `KEYWRITE`, which sets
that key alone, or `RESET`, which clears it. -/
def Obligations.KeysBelongToTheHost : Prop :=
  (∀ (i : Instr) (s t : State), exec i s = .next t → t.key = s.key) ∧
  (∀ s t : State, step s = .next t → t.key = s.key ∨
    (∃ k b rest, s.host = .keyWrite k b :: rest ∧
      ∀ j : Fin 16, t.key[j] = if j = k then b else s.key[j]) ∨
    (∃ font rest, s.host = .reset font :: rest ∧ ∀ j : Fin 16, t.key[j] = false))

/-- R30: a timer changes only by its own instruction, by a tick, which takes 1 from it down to 0, and by
`RESET`. -/
def Obligations.TimersChangeOnlyByWriteOrTick : Prop :=
  ∀ s t : State, step s = .next t →
    (t.dt = s.dt ∨ (∃ rest, s.host = .tick :: rest ∧ t.dt.toNat = s.dt.toNat - 1) ∨
      (∃ font rest, s.host = .reset font :: rest ∧ t.dt = 0) ∨
      ((s.host = [] ∨ ∃ r rest, s.host = .cycle r :: rest) ∧
        ∃ x, s.nextInstr = some (.ldDtVx x) ∧ t.dt = s.readV x)) ∧
    (t.st = s.st ∨ (∃ rest, s.host = .tick :: rest ∧ t.st.toNat = s.st.toNat - 1) ∨
      (∃ font rest, s.host = .reset font :: rest ∧ t.st = 0) ∨
      ((s.host = [] ∨ ∃ r rest, s.host = .cycle r :: rest) ∧
        ∃ x, s.nextInstr = some (.ldStVx x) ∧ t.st = s.readV x))

/-- R30: no instruction reads `ST`: every instruction but FX18 does the same whatever `ST` is, and leaves
it. -/
def Obligations.NoInstructionReadsTheSoundTimer : Prop :=
  ∀ (i : Instr) (s t : State) (b : Byte), (∀ x, i ≠ .ldStVx x) → exec i s = .next t →
    exec i { s with st := b } = .next { t with st := b }

/-! ### Control transfer -/

/-- R141, R143: 1NNN sets `PC` to `NNN`, BNNN to `V0 + NNN`, whatever the parity or the range (the spec's
decision D7), and nothing else changes. -/
def Obligations.JumpsSetPc : Prop :=
  ∀ (s : State) (nnn : BitVec 12),
    (∃ t, exec (.jp nnn) s = .next t ∧ t.pc.toNat = nnn.toNat ∧ Frame (fun p => p = .pc) s t) ∧
    (∃ t, exec (.jpV0 nnn) s = .next t ∧ t.pc.toNat = (s.readV 0).toNat + nnn.toNat ∧
      Frame (fun p => p = .pc) s t)

/-- R142: 2NNN pushes the address of the following instruction and jumps; on a full stack it reports
`StackOverflow(op, A)` and does nothing else (the spec's decision D4, log 7). -/
def Obligations.CallPushesTheNextAddress : Prop :=
  ∀ (s : State) (nnn : BitVec 12),
    (∀ h : s.sp.val < 12, ∃ t, exec (.call nnn) s = .next t ∧ t.pc.toNat = nnn.toNat ∧
      t.sp.val = s.sp.val + 1 ∧ t.stack[s.sp.val] = s.pc ∧
      Frame (fun p => p = .pc ∨ p = .sp ∨ p = .slot ⟨s.sp.val, h⟩) s t) ∧
    (s.sp.val = 12 → ∃ t, exec (.call nnn) s = .next t ∧
      t.out = .completed (.stackOverflow (encode (.call nnn)) (s.pc - 2)) ∧
      Frame (fun p => p = .out) s t)

/-- R140: 00EE pops the stack into `PC`, a value of 0x0002 to 0x1000 where the stack holds what calls
pushed; on an empty stack it reports `StackUnderflow(op, A)` and does nothing else (the spec's decision
D4, log 7). -/
def Obligations.ReturnPopsIntoPc : Prop :=
  ∀ s : State,
    (∀ h : 0 < s.sp.val, ∃ t, exec .ret s = .next t ∧ t.pc = s.stack[s.sp.val - 1]'(by omega) ∧
      t.sp.val = s.sp.val - 1 ∧ (s.StackInv → 2 ≤ t.pc.toNat ∧ t.pc.toNat ≤ 0x1000) ∧
      Frame (fun p => p = .pc ∨ p = .sp) s t) ∧
    (s.sp.val = 0 → ∃ t, exec .ret s = .next t ∧
      t.out = .completed (.stackUnderflow 0x00EE (s.pc - 2)) ∧ Frame (fun p => p = .out) s t)

/-- A return from a state with the stack a call left goes to the instruction after the call, and the stack is
as deep as before the call. -/
def Obligations.ReturnUndoesCall : Prop :=
  ∀ (s : State) (nnn : BitVec 12), s.sp.val < 12 →
    ∃ t, exec (.call nnn) s = .next t ∧
      ∀ t' : State, t'.stack = t.stack → t'.sp = t.sp →
        ∃ u, exec .ret t' = .next u ∧ u.pc = s.pc ∧ u.sp = s.sp

/-- "12 nested calls without return succeed; a 13th call fails with `StackOverflow`". -/
def Obligations.CallsNestTwelveDeep : Prop :=
  ∀ (s : State) (targets : List (BitVec 12)), s.sp.val = 0 → targets.length ≤ 12 →
    ∃ t, execAll (targets.map .call) s = .next t ∧ t.sp.val = targets.length ∧ t.out = s.out ∧
      (targets.length = 12 → ∀ nnn : BitVec 12, ∃ u, exec (.call nnn) t = .next u ∧
        u.out = .completed (.stackOverflow (encode (.call nnn)) (t.pc - 2)) ∧
        Frame (fun p => p = .out) t u)

/-- R144 to R147: each skip adds a further 2 to the advanced `PC` exactly when its condition holds, and
nothing else changes; 5XYN and 9XYN with `N ≠ 0` are not these instructions but illegal words, reported
and not executed. -/
def Obligations.SkipsAdvancePcOnTheirCondition : Prop :=
  ∀ (s : State) (x y : Reg) (nn : Byte),
    (∃ t, exec (.seImm x nn) s = .next t ∧
      t.pc = (if (s.readV x).toNat = nn.toNat then s.pc + 2 else s.pc) ∧ Frame (fun p => p = .pc) s t) ∧
    (∃ t, exec (.sneImm x nn) s = .next t ∧
      t.pc = (if (s.readV x).toNat ≠ nn.toNat then s.pc + 2 else s.pc) ∧ Frame (fun p => p = .pc) s t) ∧
    (∃ t, exec (.seReg x y) s = .next t ∧
      t.pc = (if (s.readV x).toNat = (s.readV y).toNat then s.pc + 2 else s.pc) ∧
      Frame (fun p => p = .pc) s t) ∧
    (∃ t, exec (.sneReg x y) s = .next t ∧
      t.pc = (if (s.readV x).toNat ≠ (s.readV y).toNat then s.pc + 2 else s.pc) ∧
      Frame (fun p => p = .pc) s t) ∧
    (∀ (r : Option Byte) (n : BitVec 4), n ≠ 0 → s.pc.toNat ≤ 0xFFE →
      fetchWord s = packXYN 0x5 x y n ∨ fetchWord s = packXYN 0x9 x y n →
      ∃ t, cycle r s = .next t ∧ t.pc = s.pc + 2 ∧
        t.out = .completed (.decodeError (fetchWord s) s.pc))

/-! ### Arithmetic and logic -/

/-- R161, R162, R163: 6XNN loads, 7XNN adds modulo 256, 8XY0 copies; only `Vx` changes, so VF is not
written as a flag. -/
def Obligations.LoadsAndImmediateAdd : Prop :=
  ∀ (s : State) (x y : Reg) (nn : Byte),
    (∃ t, exec (.ldImm x nn) s = .next t ∧ t.readV x = nn ∧ Frame (fun p => p = .v x) s t) ∧
    (∃ t, exec (.addImm x nn) s = .next t ∧
      (t.readV x).toNat = ((s.readV x).toNat + nn.toNat) % 256 ∧ Frame (fun p => p = .v x) s t) ∧
    (∃ t, exec (.ldReg x y) s = .next t ∧ t.readV x = s.readV y ∧ Frame (fun p => p = .v x) s t)

/-- R164, R165, R166: OR, AND, XOR of `Vx` and `Vy`, bit by bit, and VF = 0 always, with `X = 15` too. -/
def Obligations.LogicClearsVf : Prop :=
  ∀ (s : State) (x y : Reg),
    (∃ t, exec (.or x y) s = .next t ∧ t.readV vf = 0 ∧
      (x ≠ vf → ∀ j, (t.readV x).getLsbD j = ((s.readV x).getLsbD j || (s.readV y).getLsbD j)) ∧
      Frame (fun p => p = .v x ∨ p = .v vf) s t) ∧
    (∃ t, exec (.and x y) s = .next t ∧ t.readV vf = 0 ∧
      (x ≠ vf → ∀ j, (t.readV x).getLsbD j = ((s.readV x).getLsbD j && (s.readV y).getLsbD j)) ∧
      Frame (fun p => p = .v x ∨ p = .v vf) s t) ∧
    (∃ t, exec (.xor x y) s = .next t ∧ t.readV vf = 0 ∧
      (x ≠ vf → ∀ j, (t.readV x).getLsbD j = ((s.readV x).getLsbD j ^^ (s.readV y).getLsbD j)) ∧
      Frame (fun p => p = .v x ∨ p = .v vf) s t)

/-- R167: 8XY4. The flag is there with `X = 15` too, where the sum is lost (the spec's decision D8, log 7). -/
def Obligations.AddSetsTheCarry : Prop :=
  ∀ (s : State) (x y : Reg), ∃ t, exec (.addReg x y) s = .next t ∧
    (t.readV vf).toNat = (if (s.readV x).toNat + (s.readV y).toNat > 255 then 1 else 0) ∧
    (x ≠ vf → (t.readV x).toNat = ((s.readV x).toNat + (s.readV y).toNat) % 256) ∧
    Frame (fun p => p = .v x ∨ p = .v vf) s t

/-- R168, R170: 8XY5 and 8XY7. The flag is 1 when there is no borrow, and is there with `X = 15` too, where
the difference is lost (the spec's decisions D8 and, for 8XY7, D9, log 7). -/
def Obligations.SubtractionsSetNoBorrow : Prop :=
  ∀ (s : State) (x y : Reg),
    (∃ t, exec (.sub x y) s = .next t ∧
      (t.readV vf).toNat = (if (s.readV x).toNat ≥ (s.readV y).toNat then 1 else 0) ∧
      (x ≠ vf → (t.readV x).toNat = ((s.readV x).toNat + 256 - (s.readV y).toNat) % 256) ∧
      Frame (fun p => p = .v x ∨ p = .v vf) s t) ∧
    (∃ t, exec (.subn x y) s = .next t ∧
      (t.readV vf).toNat = (if (s.readV y).toNat ≥ (s.readV x).toNat then 1 else 0) ∧
      (x ≠ vf → (t.readV x).toNat = ((s.readV y).toNat + 256 - (s.readV x).toNat) % 256) ∧
      Frame (fun p => p = .v x ∨ p = .v vf) s t)

/-- R169, R171: the shifts read `Vy`, write `Vx`, and put the lost bit in VF, with `X = 15` too (the
spec's decision D8, log 7). -/
def Obligations.ShiftsReadVyAndKeepTheLostBit : Prop :=
  ∀ (s : State) (x y : Reg),
    (∃ t, exec (.shr x y) s = .next t ∧
      (t.readV vf).toNat = (s.readV y).toNat % 2 ∧
      (x ≠ vf → (t.readV x).toNat = (s.readV y).toNat / 2) ∧
      Frame (fun p => p = .v x ∨ p = .v vf) s t) ∧
    (∃ t, exec (.shl x y) s = .next t ∧
      (t.readV vf).toNat = (s.readV y).toNat / 128 ∧
      (x ≠ vf → (t.readV x).toNat = 2 * (s.readV y).toNat % 256) ∧
      Frame (fun p => p = .v x ∨ p = .v vf) s t)

/-- CXNN writes `rnd AND NN`, for whatever byte the random input holds in the cycle (`42_alu.md` section 4,
D17). The clauses on `Config.freeRnd` and on the counter `rndIndex` are the model's own choice (log 1,
DESIGN CHOICE), not the spec's. -/
def Obligations.RandomMasksTheInput : Prop :=
  ∀ (s : State) (x : Reg) (nn : Byte), ∃ t, exec (.rnd x nn) s = .next t ∧
    (∀ r, s.rnd = some r → ∀ j, (t.readV x).getLsbD j = (r.getLsbD j && nn.getLsbD j)) ∧
    (s.rnd = none → ∀ j, (t.readV x).getLsbD j = ((Config.freeRnd s.rndIndex).getLsbD j && nn.getLsbD j)) ∧
    t.rndIndex = s.rndIndex + 1 ∧
    Frame (fun p => p = .v x ∨ p = .rndIndex) s t

/-! ### The address register and memory -/

/-- R190, R191, R192: ANNN loads `I`, FX1E adds `Vx` to it modulo 2^16, FX29 makes it `5 * Vx`; nothing else
changes, so VF does not (the wrap is the spec's decision D7, the missing base D15). -/
def Obligations.AddressRegisterInstructions : Prop :=
  ∀ (s : State) (x : Reg) (nnn : BitVec 12),
    (∃ t, exec (.ldI nnn) s = .next t ∧ t.i.toNat = nnn.toNat ∧ Frame (fun p => p = .i) s t) ∧
    (∃ t, exec (.addI x) s = .next t ∧ t.i.toNat = (s.i.toNat + (s.readV x).toNat) % 65536 ∧
      Frame (fun p => p = .i) s t) ∧
    (∃ t, exec (.ldF x) s = .next t ∧ t.i.toNat = 5 * (s.readV x).toNat ∧ Frame (fun p => p = .i) s t)

/-- R193: FX33 stores the hundreds, tens and units of `Vx` at `I`, `I + 1`, `I + 2` and changes nothing else;
where one of the three addresses does not exist it faults. -/
def Obligations.BcdStoresThreeDigits : Prop :=
  ∀ (s : State) (x : Reg),
    (s.i.toNat + 2 ≤ 0xFFF → ∃ t, exec (.ldB x) s = .next t ∧
      (t.mem.read s.i.toNat).toNat = (s.readV x).toNat / 100 ∧
      (t.mem.read (s.i.toNat + 1)).toNat = (s.readV x).toNat / 10 % 10 ∧
      (t.mem.read (s.i.toNat + 2)).toNat = (s.readV x).toNat % 10 ∧
      Frame (fun p => ∃ a, p = .byte a ∧ s.i.toNat ≤ a ∧ a < s.i.toNat + 3) s t) ∧
    (s.i.toNat + 2 > 0xFFF → exec (.ldB x) s = .fault (.memoryBounds (max s.i.toNat 0x1000)))

/-- R194: FX55 stores `V0` to `Vx` at `I` upward, advances `I` by `x + 1`, and changes nothing else; where a
byte does not exist it faults. -/
def Obligations.DumpStoresTheRegisters : Prop :=
  ∀ (s : State) (x : Reg),
    (s.i.toNat + x.val ≤ 0xFFF → ∃ t, exec (.dump x) s = .next t ∧
      (∀ k : Reg, k.val ≤ x.val → t.mem.read (s.i.toNat + k.val) = s.readV k) ∧
      t.i.toNat = s.i.toNat + x.val + 1 ∧
      Frame (fun p => p = .i ∨ ∃ a, p = .byte a ∧ s.i.toNat ≤ a ∧ a ≤ s.i.toNat + x.val) s t) ∧
    (s.i.toNat + x.val > 0xFFF → exec (.dump x) s = .fault (.memoryBounds (max s.i.toNat 0x1000)))

/-- R195: FX65 loads `V0` to `Vx` from `I` upward, advances `I` by `x + 1`, and changes nothing else, neither
memory nor a register above `x`; where a byte does not exist it faults. -/
def Obligations.LoadReadsTheRegisters : Prop :=
  ∀ (s : State) (x : Reg),
    (s.i.toNat + x.val ≤ 0xFFF → ∃ t, exec (.load x) s = .next t ∧
      (∀ k : Reg, k.val ≤ x.val → t.readV k = s.mem.read (s.i.toNat + k.val)) ∧
      t.i.toNat = s.i.toNat + x.val + 1 ∧
      Frame (fun p => p = .i ∨ ∃ k : Reg, p = .v k ∧ k.val ≤ x.val) s t) ∧
    (s.i.toNat + x.val > 0xFFF → exec (.load x) s = .fault (.memoryBounds (max s.i.toNat 0x1000)))

/-- "FX55 then FX65 at the same I with the same X round-trips register values exactly": the load runs in any
later state with the old `I` and the memory the dump left. -/
def Obligations.DumpThenLoadRoundTrips : Prop :=
  ∀ (s : State) (x : Reg), s.i.toNat + x.val ≤ 0xFFF →
    ∃ t, exec (.dump x) s = .next t ∧
      ∀ u : State, u.i = s.i → u.mem = t.mem →
        ∃ w, exec (.load x) u = .next w ∧ w.i = t.i ∧ ∀ k : Reg, k.val ≤ x.val → w.readV k = s.readV k

/-- R73: a store is seen by the next fetch. Where a cycle executes FX55 with `I` the address of the next
instruction, the next fetch reads the word `V0 ++ V1` just stored. -/
def Obligations.StoreIsSeenByTheNextFetch : Prop :=
  ∀ (r : Option Byte) (s : State) (x : Reg), s.nextInstr = some (.dump x) → 1 ≤ x.val →
    s.i = s.pc + 2 → s.i.toNat + x.val ≤ 0xFFF →
    ∃ t, cycle r s = .next t ∧ t.pc = s.i ∧ fetchWord t = bigEndian (s.readV 0) (s.readV 1)

/-! ### Display -/

/-- R210: 00E0 turns every pixel off and sets `DIRTY`, and changes nothing else. -/
def Obligations.ClearTurnsEveryPixelOff : Prop :=
  ∀ s : State, ∃ t, exec .cls s = .next t ∧
    (∀ (x : Fin 64) (y : Fin 32), t.fb.pixel x.val y.val = false) ∧ t.dirty = true ∧
    Frame (fun p => p = .dirty ∨ ∃ x y, p = .pixel x y) s t

/-- R211: DXYN. Every pixel is the exclusive or of what it was and the clipped sprite's bit; VF is 1 exactly
when a set pixel meets a 1 bit; `DIRTY` is set; nothing else changes. Where a byte of the sprite does
not exist it faults; with `N = 0` it cannot. The orientation (bit 7 leftmost) is the spec's, from
general knowledge (log 8). -/
def Obligations.DrawXorsTheClippedSprite : Prop :=
  ∀ (s : State) (x y : Reg) (n : BitVec 4),
    (n.toNat = 0 ∨ s.i.toNat + n.toNat - 1 ≤ 0xFFF → ∃ t, exec (.drw x y n) s = .next t ∧
      (∀ (px : Fin 64) (py : Fin 32), t.fb.pixel px.val py.val = true ↔
        ¬ (s.fb.pixel px.val py.val = true ↔
          spriteBit s.mem s.i.toNat ((s.readV x).toNat % 64) ((s.readV y).toNat % 32) n.toNat px.val py.val)) ∧
      ((t.readV vf = 1 ∧ ∃ (px : Fin 64) (py : Fin 32), s.fb.pixel px.val py.val = true ∧
          spriteBit s.mem s.i.toNat ((s.readV x).toNat % 64) ((s.readV y).toNat % 32) n.toNat px.val py.val) ∨
        (t.readV vf = 0 ∧ ∀ (px : Fin 64) (py : Fin 32), s.fb.pixel px.val py.val = true →
          ¬ spriteBit s.mem s.i.toNat ((s.readV x).toNat % 64) ((s.readV y).toNat % 32) n.toNat px.val py.val)) ∧
      t.dirty = true ∧ Frame (writesOf (.drw x y n) s) s t) ∧
    (0 < n.toNat → s.i.toNat + n.toNat - 1 > 0xFFF →
      exec (.drw x y n) s = .fault (.memoryBounds (max s.i.toNat 0x1000)))

/-- R212 (which the spec derives from R211): a second draw with the same `I`, `N`, `V[X]`, `V[Y]` and sprite
bytes, on the display the first one left, restores the pixels; it reports VF = 1 exactly when the first
set a pixel, that is when a 1 bit of the sprite lands on a pixel that was unset; no pixel left of the
start column or above the start row is written, so a sprite that crosses the right edge does not wrap. -/
def Obligations.DrawTwiceRestoresThePixels : Prop :=
  ∀ (s t : State) (x y : Reg) (n : BitVec 4), exec (.drw x y n) s = .next t →
    (∀ (px : Fin 64) (py : Fin 32),
      px.val < (s.readV x).toNat % 64 ∨ py.val < (s.readV y).toNat % 32 →
      t.fb.pixel px.val py.val = s.fb.pixel px.val py.val) ∧
    (∀ t' : State, t'.fb = t.fb → t'.i = s.i → t'.readV x = s.readV x → t'.readV y = s.readV y →
      (∀ r < n.toNat, t'.mem.read (s.i.toNat + r) = s.mem.read (s.i.toNat + r)) →
      ∃ u, exec (.drw x y n) t' = .next u ∧
        (∀ (px : Fin 64) (py : Fin 32), u.fb.pixel px.val py.val = s.fb.pixel px.val py.val) ∧
        (u.readV vf = 1 ↔ ∃ (px : Fin 64) (py : Fin 32),
          t.fb.pixel px.val py.val = true ∧ s.fb.pixel px.val py.val = false) ∧
        (u.readV vf = 1 ↔ ∃ (px : Fin 64) (py : Fin 32), s.fb.pixel px.val py.val = false ∧
          spriteBit s.mem s.i.toNat ((s.readV x).toNat % 64) ((s.readV y).toNat % 32) n.toNat px.val py.val))

/-- R263 with R33: from a clean display, after any instructions, `DIRTY` is set exactly when one of them was
00E0 or DXYN; the query then answers it and clears it. -/
def Obligations.DirtyTellsOfAClearOrADraw : Prop :=
  ∀ (is : List Instr) (s t : State), execAll is s = .next t → s.dirty = false →
    (t.dirty = true ↔ ∃ i ∈ is, i = .cls ∨ ∃ x y n, i = .drw x y n) ∧
    ∃ u, event .redrawQuery t = .next u ∧ u.out = .redraw t.dirty ∧ u.dirty = false ∧
      Frame (fun p => p = .dirty ∨ p = .out) t u

/-! ### Keypad and timers -/

/-- R230, R231: EX9E and EXA1 skip on the level of the key `Vx` names; above 15 they fault (the spec's
decision D13). -/
def Obligations.KeySkipsTestTheLevel : Prop :=
  ∀ (s : State) (x : Reg),
    (∀ h : (s.readV x).toNat ≤ 15,
      (∃ t, exec (.skp x) s = .next t ∧
        t.pc = (if s.key[(s.readV x).toNat] = true then s.pc + 2 else s.pc) ∧ Frame (fun p => p = .pc) s t) ∧
      (∃ t, exec (.sknp x) s = .next t ∧
        t.pc = (if s.key[(s.readV x).toNat] = false then s.pc + 2 else s.pc) ∧ Frame (fun p => p = .pc) s t)) ∧
    ((s.readV x).toNat > 15 →
      exec (.skp x) s = .fault (.keypadIndex (s.readV x)) ∧
      exec (.sknp x) s = .fault (.keypadIndex (s.readV x)))

/-- R232: the four rows of FX0A's state table. While it waits, `PC` goes back to the instruction (with
nothing latched, the spec's decision D14, log 7). -/
def Obligations.WaitForKeyFollowsItsTable : Prop :=
  ∀ (s : State) (x : Reg),
    (s.kw = .idle → (∀ k : Fin 16, s.key[k] = false) →
      ∃ t, exec (.ldVxK x) s = .next t ∧ t.pc = s.pc - 2 ∧ Frame (fun p => p = .pc) s t) ∧
    (∀ k : Fin 16, s.kw = .idle → s.key[k] = true → (∀ j : Fin 16, j < k → s.key[j] = false) →
      ∃ t, exec (.ldVxK x) s = .next t ∧ t.kw = .latched k ∧ t.pc = s.pc - 2 ∧
        Frame (fun p => p = .pc ∨ p = .kw) s t) ∧
    (∀ k : Fin 16, s.kw = .latched k → s.key[k] = true →
      ∃ t, exec (.ldVxK x) s = .next t ∧ t.pc = s.pc - 2 ∧ Frame (fun p => p = .pc) s t) ∧
    (∀ k : Fin 16, s.kw = .latched k → s.key[k] = false →
      ∃ t, exec (.ldVxK x) s = .next t ∧ (t.readV x).toNat = k.val ∧ t.kw = .idle ∧
        Frame (fun p => p = .v x ∨ p = .kw) s t)

/-- R233, R234, R235: FX07 reads `DT`, FX15 writes `DT`, FX18 writes `ST` (which makes `audible` say whether
`Vx` is not 0), and nothing else changes. Which of the three does what is the spec's, from general
knowledge (log 8). -/
def Obligations.TimerInstructionsMoveOneByte : Prop :=
  ∀ (s : State) (x : Reg),
    (∃ t, exec (.ldVxDt x) s = .next t ∧ t.readV x = s.dt ∧ Frame (fun p => p = .v x) s t) ∧
    (∃ t, exec (.ldDtVx x) s = .next t ∧ t.dt = s.readV x ∧ Frame (fun p => p = .dt) s t) ∧
    (∃ t, exec (.ldStVx x) s = .next t ∧ t.st = s.readV x ∧
      (t.audible = true ↔ (s.readV x).toNat ≠ 0) ∧ Frame (fun p => p = .st) s t)

/-! ### Events of the host -/

/-- R258: `n` ticks take `n` from each timer, on its own, down to 0, and change nothing else. -/
def Obligations.TicksCountDownToZero : Prop :=
  ∀ (n : Nat) (s : State), ∃ t, tickAll n s = .next t ∧
    t.dt.toNat = s.dt.toNat - n ∧ t.st.toNat = s.st.toNat - n ∧
    Frame (fun p => p = .dt ∨ p = .st ∨ p = .out) s t

/-- R302, R303: an image of 1 to 3584 bytes is copied to 0x200 upward and `PC` becomes 0x200, and nothing else
changes; an empty or a longer one is `LoadError` and changes nothing (`PC` then: the spec's
decision D25, log 7). -/
def Obligations.LoadCopiesTheImageOrNothing : Prop :=
  ∀ (s : State) (image : List Byte),
    (0 < image.length → image.length ≤ 4096 - 0x200 → ∃ t, event (.load image) s = .next t ∧
      t.out = .loaded .none ∧ t.pc = 0x200 ∧
      (∀ (j : Nat) (h : j < image.length), t.mem.read (0x200 + j) = image[j]) ∧
      Frame (fun p => p = .pc ∨ p = .out ∨
        ∃ a, p = .byte a ∧ 0x200 ≤ a ∧ a < 0x200 + image.length) s t) ∧
    (image.length = 0 ∨ image.length > 4096 - 0x200 → ∃ t, event (.load image) s = .next t ∧
      t.out = .loaded (.loadError image.length) ∧ Frame (fun p => p = .out) s t)

/-- R264, R265, R261: `KEYWRITE` sets one key and nothing else; the framebuffer view gives pixel `(x, y)` at
index `y*64 + x` and the `audible` view `ST ≠ 0`, and neither changes the engine. -/
def Obligations.KeyWriteAndViews : Prop :=
  ∀ (s : State) (k : Fin 16) (b : Bool),
    (∃ t, event (.keyWrite k b) s = .next t ∧ t.key[k] = b ∧
      Frame (fun p => p = .key k ∨ p = .out) s t) ∧
    (∃ t fb, event .readFb s = .next t ∧ t.out = .frame fb ∧
      (∀ (x : Fin 64) (y : Fin 32), FrameBuffer.bit fb (y.val * 64 + x.val) = s.fb.pixel x.val y.val) ∧
      Frame (fun p => p = .out) s t) ∧
    (∃ t on, event .readAudible s = .next t ∧ t.out = .audible on ∧ (on = true ↔ s.st.toNat ≠ 0) ∧
      Frame (fun p => p = .out) s t)

/-- R308: from a state whose next word is the jump to itself, any number of cycles completes and leaves every
piece of the spec's state as it is. -/
def Obligations.SelfJumpStopsTheProgram : Prop :=
  ∀ (s : State) (nnn : BitVec 12), s.host = [] → nnn.toNat = s.pc.toNat → s.pc.toNat ≤ 0xFFE →
    decodeWord (fetchWord s) = some (.jp nnn) →
    ∀ n : Nat, ∃ t, Sys2Proof.core.run n s = .next t ∧ ∀ p : Part, p.ofSpec → p.same s t
end

