-- ==== Sys2Proof/Laws/Decode.lean ====
section
/-! SUPPORT. What each field of a packed word is (`30_encoding.md` R91, R92), the two bytes of a word, and
a word from its fields. -/

namespace Sys2Proof

/-! ### The bits of a packed word -/

theorem getLsbD_packNNN (g : BitVec 4) (nnn : BitVec 12) (j : Nat) :
    (packNNN g nnn).getLsbD j = if j < 12 then nnn.getLsbD j else g.getLsbD (j - 12) :=
  BitVec.getLsbD_append

theorem getLsbD_packXNN (g : BitVec 4) (x : Reg) (nn : Byte) (j : Nat) :
    (packXNN g x nn).getLsbD j = if j < 8 then nn.getLsbD j
      else if j < 12 then x.val.testBit (j - 8) else g.getLsbD (j - 12) := by
  refine (BitVec.getLsbD_append (x := g ++ (BitVec.ofFin x : BitVec 4))).trans ?_
  rw [BitVec.getLsbD_append]
  have h : j - 8 < 4 ↔ j < 12 := by omega
  simp only [h, Nat.sub_sub]
  rfl

theorem getLsbD_packXYN (g : BitVec 4) (x y : Reg) (n : BitVec 4) (j : Nat) :
    (packXYN g x y n).getLsbD j = if j < 4 then n.getLsbD j else if j < 8 then y.val.testBit (j - 4)
      else if j < 12 then x.val.testBit (j - 8) else g.getLsbD (j - 12) := by
  refine (BitVec.getLsbD_append (x := g ++ (BitVec.ofFin x : BitVec 4) ++ (BitVec.ofFin y : BitVec 4))).trans ?_
  rw [BitVec.getLsbD_append, BitVec.getLsbD_append]
  have h : j - 4 < 4 ↔ j < 8 := by omega
  have h' : j - 8 < 4 ↔ j < 12 := by omega
  simp only [h, h', Nat.sub_sub]
  rfl

theorem getLsbD_bigEndian (hi lo : Byte) (j : Nat) :
    (bigEndian hi lo).getLsbD j = if j < 8 then lo.getLsbD j else hi.getLsbD (j - 8) :=
  BitVec.getLsbD_append

/-- A register field is its four bits. -/
theorem fieldReg_eq {b : BitVec 4} {x : Reg} (h : ∀ j < 4, b.getLsbD j = x.val.testBit j) : b.toFin = x := by
  have : b = BitVec.ofFin x := BitVec.eq_of_getLsbD_eq fun j hj => (h j hj).trans rfl
  rw [this]

/-! ### Format `NNN` -/

@[simp] theorem fieldG_packNNN (g : BitVec 4) (nnn : BitVec 12) : fieldG (packNNN g nnn) = g := by
  refine BitVec.eq_of_getLsbD_eq fun j hj => ?_
  simp [fieldG, getLsbD_packNNN, hj]

@[simp] theorem fieldNNN_packNNN (g : BitVec 4) (nnn : BitVec 12) : fieldNNN (packNNN g nnn) = nnn := by
  refine BitVec.eq_of_getLsbD_eq fun j hj => ?_
  simp [fieldNNN, getLsbD_packNNN, hj]

/-! ### Formats `XNN` and `X` -/

@[simp] theorem fieldG_packXNN (g : BitVec 4) (x : Reg) (nn : Byte) : fieldG (packXNN g x nn) = g := by
  refine BitVec.eq_of_getLsbD_eq fun j hj => ?_
  have h : ¬ 12 + j < 8 := by omega
  simp [fieldG, getLsbD_packXNN, hj, h]

@[simp] theorem fieldX_packXNN (g : BitVec 4) (x : Reg) (nn : Byte) : fieldX (packXNN g x nn) = x := by
  refine fieldReg_eq fun j hj => ?_
  have h : 8 + j < 12 := by omega
  simp [getLsbD_packXNN, hj, h]

@[simp] theorem fieldNN_packXNN (g : BitVec 4) (x : Reg) (nn : Byte) : fieldNN (packXNN g x nn) = nn := by
  refine BitVec.eq_of_getLsbD_eq fun j hj => ?_
  simp [fieldNN, getLsbD_packXNN, hj]

/-! ### Formats `XY` and `XYN` -/

@[simp] theorem fieldG_packXYN (g : BitVec 4) (x y : Reg) (n : BitVec 4) : fieldG (packXYN g x y n) = g := by
  refine BitVec.eq_of_getLsbD_eq fun j hj => ?_
  have h : ¬ 12 + j < 4 := by omega
  have h' : ¬ 12 + j < 8 := by omega
  simp [fieldG, getLsbD_packXYN, hj, h, h']

@[simp] theorem fieldX_packXYN (g : BitVec 4) (x y : Reg) (n : BitVec 4) : fieldX (packXYN g x y n) = x := by
  refine fieldReg_eq fun j hj => ?_
  have h : 8 + j < 12 := by omega
  have h' : ¬ 8 + j < 4 := by omega
  simp [getLsbD_packXYN, hj, h, h']

@[simp] theorem fieldY_packXYN (g : BitVec 4) (x y : Reg) (n : BitVec 4) : fieldY (packXYN g x y n) = y := by
  refine fieldReg_eq fun j hj => ?_
  have h : 4 + j < 8 := by omega
  simp [getLsbD_packXYN, hj, h]

@[simp] theorem fieldN_packXYN (g : BitVec 4) (x y : Reg) (n : BitVec 4) : fieldN (packXYN g x y n) = n := by
  refine BitVec.eq_of_getLsbD_eq fun j hj => ?_
  simp [fieldN, getLsbD_packXYN, hj]

/-! ### Bytes -/

@[simp] theorem bigEndian_bytes (op : Word) : bigEndian (highByte op) (lowByte op) = op := by
  refine BitVec.eq_of_getLsbD_eq fun j hj => ?_
  rw [getLsbD_bigEndian]
  split
  · simp [lowByte, *]
  · have h : j - 8 < 8 := by omega
    have h' : 8 + (j - 8) = j := by omega
    simp [highByte, h, h']

@[simp] theorem highByte_bigEndian (hi lo : Byte) : highByte (bigEndian hi lo) = hi := by
  refine BitVec.eq_of_getLsbD_eq fun j hj => ?_
  simp [highByte, getLsbD_bigEndian, hj]

@[simp] theorem lowByte_bigEndian (hi lo : Byte) : lowByte (bigEndian hi lo) = lo := by
  refine BitVec.eq_of_getLsbD_eq fun j hj => ?_
  simp [lowByte, getLsbD_bigEndian, hj]

/-! ### A word from its fields -/

/-- Bit `lo + k` of a word, read through a field. -/
theorem getLsbD_field (op : Word) (lo w k : Nat) (h : k < w) :
    (op.extractLsb' lo w).getLsbD k = op.getLsbD (lo + k) := by
  simp [h]

theorem testBit_fieldX (op : Word) (k : Nat) (h : k < 4) : (fieldX op).val.testBit k = op.getLsbD (8 + k) :=
  getLsbD_field op 8 4 k h

theorem testBit_fieldY (op : Word) (k : Nat) (h : k < 4) : (fieldY op).val.testBit k = op.getLsbD (4 + k) :=
  getLsbD_field op 4 4 k h

theorem packNNN_fields (op : Word) : packNNN (fieldG op) (fieldNNN op) = op := by
  refine BitVec.eq_of_getLsbD_eq fun j hj => ?_
  rw [getLsbD_packNNN]
  split
  · rw [fieldNNN, getLsbD_field _ _ _ _ (by omega)]; congr 1; omega
  · rw [fieldG, getLsbD_field _ _ _ _ (by omega)]; congr 1; omega

theorem packXNN_fields (op : Word) : packXNN (fieldG op) (fieldX op) (fieldNN op) = op := by
  refine BitVec.eq_of_getLsbD_eq fun j hj => ?_
  rw [getLsbD_packXNN]
  split
  · rw [fieldNN, getLsbD_field _ _ _ _ (by omega)]; congr 1; omega
  · split
    · rw [testBit_fieldX _ _ (by omega)]; congr 1; omega
    · rw [fieldG, getLsbD_field _ _ _ _ (by omega)]; congr 1; omega

theorem packXYN_fields (op : Word) : packXYN (fieldG op) (fieldX op) (fieldY op) (fieldN op) = op := by
  refine BitVec.eq_of_getLsbD_eq fun j hj => ?_
  rw [getLsbD_packXYN]
  split
  · rw [fieldN, getLsbD_field _ _ _ _ (by omega)]; congr 1; omega
  · split
    · rw [testBit_fieldY _ _ (by omega)]; congr 1; omega
    · split
      · rw [testBit_fieldX _ _ (by omega)]; congr 1; omega
      · rw [fieldG, getLsbD_field _ _ _ _ (by omega)]; congr 1; omega

end Sys2Proof
end

