-- ==== Sys2Proof/Laws/Memory.lean ====
section
/-! SUPPORT. The laws of memory: what a byte reads as after a write, and that every write keeps the
canonical form. -/

/-- `MEM_SIZE` as a numeral, for `omega`. -/
@[simp] theorem Sys2Proof.Config.memSize_eq : Sys2Proof.Config.memSize = 4096 := rfl

/-- `PROG_BASE` as a numeral. -/
@[simp] theorem Sys2Proof.Config.progBase_eq : Sys2Proof.Config.progBase = 512 := rfl

/-- `FONT_BASE` as a numeral. -/
@[simp] theorem Sys2Proof.Config.fontBase_eq : Sys2Proof.Config.fontBase = 80 := rfl

/-- `MAX_PROG_LEN` as a numeral. -/
@[simp] theorem Sys2Proof.Config.maxProgLen_eq : Sys2Proof.Config.maxProgLen = 3584 := rfl

namespace Sys2Proof.Machine.Memory

/-! ### Reading -/

theorem read_append (m n : Memory) (b : Nat) :
    read (m ++ n) b = if b ∈ m.map Prod.fst then read m b else read n b := by
  induction m with
  | nil => simp
  | cons c m ih =>
    obtain ⟨a, w⟩ := c
    by_cases h : b = a
    · simp [read, h]
    · simp only [List.cons_append, read, h, if_false, ih, List.map_cons, List.mem_cons, false_or]

theorem read_of_not_mem (m : Memory) (b : Nat) (h : b ∉ m.map Prod.fst) : read m b = resetByte b := by
  induction m with
  | nil => rfl
  | cons c m ih =>
    obtain ⟨a, w⟩ := c
    simp only [List.map_cons, List.mem_cons, not_or] at h
    simp [read, h.1, ih h.2]

/-- A filter that keeps every cell of `b` does not change what `b` reads as. -/
theorem read_filter (p : Host.Cell → Bool) (m : Memory) (b : Nat) (h : ∀ w, p (b, w) = true) :
    read (m.filter p) b = read m b := by
  induction m with
  | nil => rfl
  | cons c m ih =>
    obtain ⟨a, w⟩ := c
    by_cases hab : b = a
    · subst hab
      simp [h, read]
    · by_cases hp : p (a, w) = true <;> simp [hp, read, hab, ih]

theorem not_mem_filter (p : Host.Cell → Bool) (m : Memory) (b : Nat) (h : ∀ w, p (b, w) = false) :
    b ∉ (m.filter p).map Prod.fst := by
  intro hb
  obtain ⟨⟨a, w⟩, hm, rfl⟩ := List.mem_map.mp hb
  have := (List.mem_filter.mp hm).2
  simp [h w] at this

theorem mem_cells (a : Nat) (bs : List Byte) (b : Nat) (h : b ∈ (cells a bs).map Prod.fst) :
    a ≤ b ∧ b < a + bs.length := by
  induction bs generalizing a with
  | nil => simp [cells] at h
  | cons w bs ih =>
    simp only [cells, consCell] at h
    split at h
    · have := ih (a + 1) h
      simp only [List.length_cons]
      omega
    · simp only [List.map_cons, List.mem_cons] at h
      rcases h with rfl | h
      · simp
      · have := ih (a + 1) h
        simp only [List.length_cons]
        omega

theorem read_cells (a : Nat) (bs : List Byte) (k : Nat) (h : k < bs.length) :
    read (cells a bs) (a + k) = bs[k] := by
  induction bs generalizing a k with
  | nil => simp at h
  | cons w bs ih =>
    cases k with
    | zero =>
      simp only [cells, consCell, Nat.add_zero, List.getElem_cons_zero]
      split
      · rename_i hw
        rw [hw]
        refine read_of_not_mem _ _ fun hm => ?_
        have := mem_cells _ _ _ hm
        omega
      · simp [read]
    | succ k =>
      have hk : k < bs.length := by simpa using h
      have e : a + (k + 1) = a + 1 + k := by omega
      simp only [cells, consCell, List.getElem_cons_succ, e]
      split
      · exact ih (a + 1) k hk
      · have : a + 1 + k ≠ a := by omega
        simp only [read, this, if_false, ih (a + 1) k hk]

/-- A byte outside the bytes written reads as before. -/
theorem read_writeBytes_out (m : Memory) (a : Nat) (bs : List Byte) (b : Nat) (h : b < a ∨ a + bs.length ≤ b) :
    read (writeBytes m a bs) b = read m b := by
  have hc : b ∉ (cells a bs).map Prod.fst := fun hm => by
    have := mem_cells _ _ _ hm
    omega
  rw [writeBytes, read_append, read_append, if_neg hc]
  rcases h with h | h
  · split
    · exact read_filter _ _ _ fun w => by simpa using h
    · rename_i hm
      have e := read_filter (fun c => decide (c.1 < a)) m b (fun w => by simpa using h)
      rw [read_of_not_mem _ _ hm] at e
      rw [← e]
      exact read_of_not_mem _ _ (not_mem_filter _ _ _ fun w => by simp; omega)
  · rw [if_neg (not_mem_filter _ _ _ fun w => by simp; omega)]
    exact read_filter _ _ _ fun w => by simpa using h

/-- A byte written reads as what was written. -/
theorem read_writeBytes_in (m : Memory) (a : Nat) (bs : List Byte) (k : Nat) (h : k < bs.length) :
    read (writeBytes m a bs) (a + k) = bs[k] := by
  have e := read_cells a bs k h
  rw [writeBytes, read_append, if_neg (not_mem_filter _ _ _ fun w => by simp), read_append]
  split
  · exact e
  · rename_i hm
    rw [read_of_not_mem _ _ hm] at e
    rw [← e]
    exact read_of_not_mem _ _ (not_mem_filter _ _ _ fun w => by simp; omega)

/-- What every byte reads as after a write. -/
theorem read_writeBytes (m : Memory) (a : Nat) (bs : List Byte) (b : Nat) :
    read (writeBytes m a bs) b = if h : a ≤ b ∧ b < a + bs.length then bs[b - a]'(by omega) else read m b := by
  split
  · rename_i h
    have := read_writeBytes_in m a bs (b - a) (by omega)
    rwa [Nat.add_sub_cancel' h.1] at this
  · exact read_writeBytes_out m a bs b (by omega)

theorem read_write (m : Memory) (a : Nat) (w : Byte) (b : Nat) :
    read (write m a w) b = if b = a then w else read m b := by
  rw [write, read_writeBytes]
  by_cases h : b = a
  · subst h; simp
  · rw [dif_neg (by simp; omega), if_neg h]

@[simp] theorem readBytes_length (m : Memory) (a n : Nat) : (readBytes m a n).length = n := by
  induction n generalizing a with
  | zero => rfl
  | succ n ih => simp [readBytes, ih]

theorem getElem_readBytes (m : Memory) (a n k : Nat) (h : k < n) :
    (readBytes m a n)[k]'(by simpa using h) = m.read (a + k) := by
  induction n generalizing a k with
  | zero => omega
  | succ n ih =>
    cases k with
    | zero => rfl
    | succ k =>
      have := ih (a + 1) k (by omega)
      simp only [readBytes, List.getElem_cons_succ, this]
      congr 1
      omega

/-! ### The canonical form -/

theorem wfFrom_mono {lo hi : Nat} {m : Memory} (h : wfFrom hi m = true) (hle : lo ≤ hi) : wfFrom lo m = true := by
  cases m with
  | nil => rfl
  | cons c m =>
    obtain ⟨a, w⟩ := c
    simp only [wfFrom, Bool.and_eq_true, decide_eq_true_eq] at h ⊢
    exact ⟨⟨⟨by omega, h.1.1.2⟩, h.1.2⟩, h.2⟩

theorem wfFrom_filter {lo : Nat} {m : Memory} (p : Host.Cell → Bool) (h : wfFrom lo m = true) :
    wfFrom lo (m.filter p) = true := by
  induction m generalizing lo with
  | nil => rfl
  | cons c m ih =>
    obtain ⟨a, w⟩ := c
    simp only [wfFrom, Bool.and_eq_true, decide_eq_true_eq] at h
    have hm := ih h.2
    by_cases hp : p (a, w) = true
    · simp only [hp, List.filter_cons_of_pos, wfFrom, Bool.and_eq_true, decide_eq_true_eq]
      exact ⟨h.1, hm⟩
    · simp only [hp, Bool.false_eq_true, not_false_eq_true, List.filter_cons_of_neg]
      exact wfFrom_mono hm (by omega)

/-- The cells at `hi` and above are in canonical form above `hi`. -/
theorem wfFrom_filter_ge {lo hi : Nat} {m : Memory} (h : wfFrom lo m = true) :
    wfFrom hi (m.filter fun c => decide (hi ≤ c.1)) = true := by
  induction m generalizing lo with
  | nil => rfl
  | cons c m ih =>
    obtain ⟨a, w⟩ := c
    simp only [wfFrom, Bool.and_eq_true, decide_eq_true_eq] at h
    by_cases hp : hi ≤ a
    · simp only [hp, decide_true, List.filter_cons_of_pos, wfFrom, Bool.and_eq_true, decide_eq_true_eq]
      exact ⟨⟨⟨trivial, h.1.1.2⟩, h.1.2⟩, wfFrom_filter _ h.2⟩
    · simp only [hp, decide_false, Bool.false_eq_true, not_false_eq_true, List.filter_cons_of_neg]
      exact ih h.2

theorem wfFrom_cells_append {a hi : Nat} {n : Memory} (bs : List Byte) (hn : wfFrom hi n = true)
    (hlen : a + bs.length = hi) (hsz : hi ≤ Config.memSize) : wfFrom a (cells a bs ++ n) = true := by
  induction bs generalizing a with
  | nil => simpa [cells, ← hlen] using hn
  | cons w bs ih =>
    have ht := ih (a := a + 1) (by simp only [List.length_cons] at hlen; omega)
    simp only [cells, consCell]
    split
    · exact wfFrom_mono ht (by omega)
    · rename_i hw
      simp only [List.cons_append, wfFrom, Bool.and_eq_true, decide_eq_true_eq]
      simp only [List.length_cons] at hlen
      exact ⟨⟨⟨le_refl a, by omega⟩, hw⟩, ht⟩

theorem wfFrom_low_append {lo a : Nat} {m n : Memory} (hm : wfFrom lo m = true) (hn : wfFrom a n = true)
    (hlo : lo ≤ a) : wfFrom lo (m.filter (fun c => decide (c.1 < a)) ++ n) = true := by
  induction m generalizing lo with
  | nil => exact wfFrom_mono hn hlo
  | cons c m ih =>
    obtain ⟨b, w⟩ := c
    simp only [wfFrom, Bool.and_eq_true, decide_eq_true_eq] at hm
    by_cases hp : b < a
    · simp only [hp, decide_true, List.filter_cons_of_pos, List.cons_append, wfFrom, Bool.and_eq_true,
        decide_eq_true_eq]
      exact ⟨hm.1, ih hm.2 (by omega)⟩
    · simp only [hp, decide_false, Bool.false_eq_true, not_false_eq_true, List.filter_cons_of_neg]
      exact ih (wfFrom_mono hm.2 (by omega)) hlo

/-- A write inside the 4096 bytes keeps the canonical form. -/
theorem wf_writeBytes {m : Memory} (h : wf m = true) (a : Nat) (bs : List Byte)
    (hsz : a + bs.length ≤ Config.memSize) : wf (writeBytes m a bs) = true :=
  wfFrom_low_append h (wfFrom_cells_append bs (wfFrom_filter_ge h) rfl hsz) (Nat.zero_le a)

theorem wf_write {m : Memory} (h : wf m = true) (a : Nat) (w : Byte) (hsz : a < Config.memSize) :
    wf (write m a w) = true :=
  wf_writeBytes h a [w] (by simpa using hsz)

end Sys2Proof.Machine.Memory
end

