-- ==== Sys2Proof/Laws/State.lean ====
section
/-! SUPPORT. One lemma per field of the state and per update of it, each true by unfolding the update, so
that no later proof unfolds a record update. -/

namespace Sys2Proof.Machine

/-! ### `State.writeV` -/

@[simp] theorem State.writeV_v (s : State) (x : Reg) (b : Byte) :
    (s.writeV x b).v = s.v.set x b := rfl
@[simp] theorem State.writeV_i (s : State) (x : Reg) (b : Byte) :
    (s.writeV x b).i = s.i := rfl
@[simp] theorem State.writeV_pc (s : State) (x : Reg) (b : Byte) :
    (s.writeV x b).pc = s.pc := rfl
@[simp] theorem State.writeV_stack (s : State) (x : Reg) (b : Byte) :
    (s.writeV x b).stack = s.stack := rfl
@[simp] theorem State.writeV_sp (s : State) (x : Reg) (b : Byte) :
    (s.writeV x b).sp = s.sp := rfl
@[simp] theorem State.writeV_dt (s : State) (x : Reg) (b : Byte) :
    (s.writeV x b).dt = s.dt := rfl
@[simp] theorem State.writeV_st (s : State) (x : Reg) (b : Byte) :
    (s.writeV x b).st = s.st := rfl
@[simp] theorem State.writeV_fb (s : State) (x : Reg) (b : Byte) :
    (s.writeV x b).fb = s.fb := rfl
@[simp] theorem State.writeV_dirty (s : State) (x : Reg) (b : Byte) :
    (s.writeV x b).dirty = s.dirty := rfl
@[simp] theorem State.writeV_key (s : State) (x : Reg) (b : Byte) :
    (s.writeV x b).key = s.key := rfl
@[simp] theorem State.writeV_kw (s : State) (x : Reg) (b : Byte) :
    (s.writeV x b).kw = s.kw := rfl
@[simp] theorem State.writeV_mem (s : State) (x : Reg) (b : Byte) :
    (s.writeV x b).mem = s.mem := rfl
@[simp] theorem State.writeV_out (s : State) (x : Reg) (b : Byte) :
    (s.writeV x b).out = s.out := rfl
@[simp] theorem State.writeV_host (s : State) (x : Reg) (b : Byte) :
    (s.writeV x b).host = s.host := rfl
@[simp] theorem State.writeV_rnd (s : State) (x : Reg) (b : Byte) :
    (s.writeV x b).rnd = s.rnd := rfl
@[simp] theorem State.writeV_rndIndex (s : State) (x : Reg) (b : Byte) :
    (s.writeV x b).rndIndex = s.rndIndex := rfl

/-! ### `State.writeI` -/

@[simp] theorem State.writeI_v (s : State) (w : Word) :
    (s.writeI w).v = s.v := rfl
@[simp] theorem State.writeI_i (s : State) (w : Word) :
    (s.writeI w).i = w := rfl
@[simp] theorem State.writeI_pc (s : State) (w : Word) :
    (s.writeI w).pc = s.pc := rfl
@[simp] theorem State.writeI_stack (s : State) (w : Word) :
    (s.writeI w).stack = s.stack := rfl
@[simp] theorem State.writeI_sp (s : State) (w : Word) :
    (s.writeI w).sp = s.sp := rfl
@[simp] theorem State.writeI_dt (s : State) (w : Word) :
    (s.writeI w).dt = s.dt := rfl
@[simp] theorem State.writeI_st (s : State) (w : Word) :
    (s.writeI w).st = s.st := rfl
@[simp] theorem State.writeI_fb (s : State) (w : Word) :
    (s.writeI w).fb = s.fb := rfl
@[simp] theorem State.writeI_dirty (s : State) (w : Word) :
    (s.writeI w).dirty = s.dirty := rfl
@[simp] theorem State.writeI_key (s : State) (w : Word) :
    (s.writeI w).key = s.key := rfl
@[simp] theorem State.writeI_kw (s : State) (w : Word) :
    (s.writeI w).kw = s.kw := rfl
@[simp] theorem State.writeI_mem (s : State) (w : Word) :
    (s.writeI w).mem = s.mem := rfl
@[simp] theorem State.writeI_out (s : State) (w : Word) :
    (s.writeI w).out = s.out := rfl
@[simp] theorem State.writeI_host (s : State) (w : Word) :
    (s.writeI w).host = s.host := rfl
@[simp] theorem State.writeI_rnd (s : State) (w : Word) :
    (s.writeI w).rnd = s.rnd := rfl
@[simp] theorem State.writeI_rndIndex (s : State) (w : Word) :
    (s.writeI w).rndIndex = s.rndIndex := rfl

/-! ### `State.writePc` -/

@[simp] theorem State.writePc_v (s : State) (w : Word) :
    (s.writePc w).v = s.v := rfl
@[simp] theorem State.writePc_i (s : State) (w : Word) :
    (s.writePc w).i = s.i := rfl
@[simp] theorem State.writePc_pc (s : State) (w : Word) :
    (s.writePc w).pc = w := rfl
@[simp] theorem State.writePc_stack (s : State) (w : Word) :
    (s.writePc w).stack = s.stack := rfl
@[simp] theorem State.writePc_sp (s : State) (w : Word) :
    (s.writePc w).sp = s.sp := rfl
@[simp] theorem State.writePc_dt (s : State) (w : Word) :
    (s.writePc w).dt = s.dt := rfl
@[simp] theorem State.writePc_st (s : State) (w : Word) :
    (s.writePc w).st = s.st := rfl
@[simp] theorem State.writePc_fb (s : State) (w : Word) :
    (s.writePc w).fb = s.fb := rfl
@[simp] theorem State.writePc_dirty (s : State) (w : Word) :
    (s.writePc w).dirty = s.dirty := rfl
@[simp] theorem State.writePc_key (s : State) (w : Word) :
    (s.writePc w).key = s.key := rfl
@[simp] theorem State.writePc_kw (s : State) (w : Word) :
    (s.writePc w).kw = s.kw := rfl
@[simp] theorem State.writePc_mem (s : State) (w : Word) :
    (s.writePc w).mem = s.mem := rfl
@[simp] theorem State.writePc_out (s : State) (w : Word) :
    (s.writePc w).out = s.out := rfl
@[simp] theorem State.writePc_host (s : State) (w : Word) :
    (s.writePc w).host = s.host := rfl
@[simp] theorem State.writePc_rnd (s : State) (w : Word) :
    (s.writePc w).rnd = s.rnd := rfl
@[simp] theorem State.writePc_rndIndex (s : State) (w : Word) :
    (s.writePc w).rndIndex = s.rndIndex := rfl

/-! ### `State.report` -/

@[simp] theorem State.report_v (s : State) (d : Diagnostic) :
    (s.report d).v = s.v := rfl
@[simp] theorem State.report_i (s : State) (d : Diagnostic) :
    (s.report d).i = s.i := rfl
@[simp] theorem State.report_pc (s : State) (d : Diagnostic) :
    (s.report d).pc = s.pc := rfl
@[simp] theorem State.report_stack (s : State) (d : Diagnostic) :
    (s.report d).stack = s.stack := rfl
@[simp] theorem State.report_sp (s : State) (d : Diagnostic) :
    (s.report d).sp = s.sp := rfl
@[simp] theorem State.report_dt (s : State) (d : Diagnostic) :
    (s.report d).dt = s.dt := rfl
@[simp] theorem State.report_st (s : State) (d : Diagnostic) :
    (s.report d).st = s.st := rfl
@[simp] theorem State.report_fb (s : State) (d : Diagnostic) :
    (s.report d).fb = s.fb := rfl
@[simp] theorem State.report_dirty (s : State) (d : Diagnostic) :
    (s.report d).dirty = s.dirty := rfl
@[simp] theorem State.report_key (s : State) (d : Diagnostic) :
    (s.report d).key = s.key := rfl
@[simp] theorem State.report_kw (s : State) (d : Diagnostic) :
    (s.report d).kw = s.kw := rfl
@[simp] theorem State.report_mem (s : State) (d : Diagnostic) :
    (s.report d).mem = s.mem := rfl
@[simp] theorem State.report_out (s : State) (d : Diagnostic) :
    (s.report d).out = .completed d := rfl
@[simp] theorem State.report_host (s : State) (d : Diagnostic) :
    (s.report d).host = s.host := rfl
@[simp] theorem State.report_rnd (s : State) (d : Diagnostic) :
    (s.report d).rnd = s.rnd := rfl
@[simp] theorem State.report_rndIndex (s : State) (d : Diagnostic) :
    (s.report d).rndIndex = s.rndIndex := rfl

/-! ### `State.beginCycle` -/

@[simp] theorem State.beginCycle_v (s : State) (r : Option Byte) :
    (s.beginCycle r).v = s.v := rfl
@[simp] theorem State.beginCycle_i (s : State) (r : Option Byte) :
    (s.beginCycle r).i = s.i := rfl
@[simp] theorem State.beginCycle_pc (s : State) (r : Option Byte) :
    (s.beginCycle r).pc = s.pc + 2 := rfl
@[simp] theorem State.beginCycle_stack (s : State) (r : Option Byte) :
    (s.beginCycle r).stack = s.stack := rfl
@[simp] theorem State.beginCycle_sp (s : State) (r : Option Byte) :
    (s.beginCycle r).sp = s.sp := rfl
@[simp] theorem State.beginCycle_dt (s : State) (r : Option Byte) :
    (s.beginCycle r).dt = s.dt := rfl
@[simp] theorem State.beginCycle_st (s : State) (r : Option Byte) :
    (s.beginCycle r).st = s.st := rfl
@[simp] theorem State.beginCycle_fb (s : State) (r : Option Byte) :
    (s.beginCycle r).fb = s.fb := rfl
@[simp] theorem State.beginCycle_dirty (s : State) (r : Option Byte) :
    (s.beginCycle r).dirty = s.dirty := rfl
@[simp] theorem State.beginCycle_key (s : State) (r : Option Byte) :
    (s.beginCycle r).key = s.key := rfl
@[simp] theorem State.beginCycle_kw (s : State) (r : Option Byte) :
    (s.beginCycle r).kw = s.kw := rfl
@[simp] theorem State.beginCycle_mem (s : State) (r : Option Byte) :
    (s.beginCycle r).mem = s.mem := rfl
@[simp] theorem State.beginCycle_out (s : State) (r : Option Byte) :
    (s.beginCycle r).out = .completed .none := rfl
@[simp] theorem State.beginCycle_host (s : State) (r : Option Byte) :
    (s.beginCycle r).host = s.host := rfl
@[simp] theorem State.beginCycle_rnd (s : State) (r : Option Byte) :
    (s.beginCycle r).rnd = r := rfl
@[simp] theorem State.beginCycle_rndIndex (s : State) (r : Option Byte) :
    (s.beginCycle r).rndIndex = s.rndIndex := rfl

/-! ### `State.nextDraw` -/

@[simp] theorem State.nextDraw_v (s : State) :
    s.nextDraw.v = s.v := rfl
@[simp] theorem State.nextDraw_i (s : State) :
    s.nextDraw.i = s.i := rfl
@[simp] theorem State.nextDraw_pc (s : State) :
    s.nextDraw.pc = s.pc := rfl
@[simp] theorem State.nextDraw_stack (s : State) :
    s.nextDraw.stack = s.stack := rfl
@[simp] theorem State.nextDraw_sp (s : State) :
    s.nextDraw.sp = s.sp := rfl
@[simp] theorem State.nextDraw_dt (s : State) :
    s.nextDraw.dt = s.dt := rfl
@[simp] theorem State.nextDraw_st (s : State) :
    s.nextDraw.st = s.st := rfl
@[simp] theorem State.nextDraw_fb (s : State) :
    s.nextDraw.fb = s.fb := rfl
@[simp] theorem State.nextDraw_dirty (s : State) :
    s.nextDraw.dirty = s.dirty := rfl
@[simp] theorem State.nextDraw_key (s : State) :
    s.nextDraw.key = s.key := rfl
@[simp] theorem State.nextDraw_kw (s : State) :
    s.nextDraw.kw = s.kw := rfl
@[simp] theorem State.nextDraw_mem (s : State) :
    s.nextDraw.mem = s.mem := rfl
@[simp] theorem State.nextDraw_out (s : State) :
    s.nextDraw.out = s.out := rfl
@[simp] theorem State.nextDraw_host (s : State) :
    s.nextDraw.host = s.host := rfl
@[simp] theorem State.nextDraw_rnd (s : State) :
    s.nextDraw.rnd = s.rnd := rfl
@[simp] theorem State.nextDraw_rndIndex (s : State) :
    s.nextDraw.rndIndex = s.rndIndex + 1 := rfl

/-! ### `State.again` -/

@[simp] theorem State.again_v (s : State) :
    s.again.v = s.v := rfl
@[simp] theorem State.again_i (s : State) :
    s.again.i = s.i := rfl
@[simp] theorem State.again_pc (s : State) :
    s.again.pc = s.pc - 2 := rfl
@[simp] theorem State.again_stack (s : State) :
    s.again.stack = s.stack := rfl
@[simp] theorem State.again_sp (s : State) :
    s.again.sp = s.sp := rfl
@[simp] theorem State.again_dt (s : State) :
    s.again.dt = s.dt := rfl
@[simp] theorem State.again_st (s : State) :
    s.again.st = s.st := rfl
@[simp] theorem State.again_fb (s : State) :
    s.again.fb = s.fb := rfl
@[simp] theorem State.again_dirty (s : State) :
    s.again.dirty = s.dirty := rfl
@[simp] theorem State.again_key (s : State) :
    s.again.key = s.key := rfl
@[simp] theorem State.again_kw (s : State) :
    s.again.kw = s.kw := rfl
@[simp] theorem State.again_mem (s : State) :
    s.again.mem = s.mem := rfl
@[simp] theorem State.again_out (s : State) :
    s.again.out = s.out := rfl
@[simp] theorem State.again_host (s : State) :
    s.again.host = s.host := rfl
@[simp] theorem State.again_rnd (s : State) :
    s.again.rnd = s.rnd := rfl
@[simp] theorem State.again_rndIndex (s : State) :
    s.again.rndIndex = s.rndIndex := rfl

/-! ### `State.push` -/

@[simp] theorem State.push_v (s : State) (w : Word) (h : s.sp.val < 12) :
    (s.push w h).v = s.v := rfl
@[simp] theorem State.push_i (s : State) (w : Word) (h : s.sp.val < 12) :
    (s.push w h).i = s.i := rfl
@[simp] theorem State.push_pc (s : State) (w : Word) (h : s.sp.val < 12) :
    (s.push w h).pc = s.pc := rfl
@[simp] theorem State.push_stack (s : State) (w : Word) (h : s.sp.val < 12) :
    (s.push w h).stack = s.stack.set s.sp.val w := rfl
@[simp] theorem State.push_sp (s : State) (w : Word) (h : s.sp.val < 12) :
    (s.push w h).sp = ⟨s.sp.val + 1, by omega⟩ := rfl
@[simp] theorem State.push_dt (s : State) (w : Word) (h : s.sp.val < 12) :
    (s.push w h).dt = s.dt := rfl
@[simp] theorem State.push_st (s : State) (w : Word) (h : s.sp.val < 12) :
    (s.push w h).st = s.st := rfl
@[simp] theorem State.push_fb (s : State) (w : Word) (h : s.sp.val < 12) :
    (s.push w h).fb = s.fb := rfl
@[simp] theorem State.push_dirty (s : State) (w : Word) (h : s.sp.val < 12) :
    (s.push w h).dirty = s.dirty := rfl
@[simp] theorem State.push_key (s : State) (w : Word) (h : s.sp.val < 12) :
    (s.push w h).key = s.key := rfl
@[simp] theorem State.push_kw (s : State) (w : Word) (h : s.sp.val < 12) :
    (s.push w h).kw = s.kw := rfl
@[simp] theorem State.push_mem (s : State) (w : Word) (h : s.sp.val < 12) :
    (s.push w h).mem = s.mem := rfl
@[simp] theorem State.push_out (s : State) (w : Word) (h : s.sp.val < 12) :
    (s.push w h).out = s.out := rfl
@[simp] theorem State.push_host (s : State) (w : Word) (h : s.sp.val < 12) :
    (s.push w h).host = s.host := rfl
@[simp] theorem State.push_rnd (s : State) (w : Word) (h : s.sp.val < 12) :
    (s.push w h).rnd = s.rnd := rfl
@[simp] theorem State.push_rndIndex (s : State) (w : Word) (h : s.sp.val < 12) :
    (s.push w h).rndIndex = s.rndIndex := rfl

/-! ### `State.pop` -/

@[simp] theorem State.pop_v (s : State) :
    s.pop.v = s.v := rfl
@[simp] theorem State.pop_i (s : State) :
    s.pop.i = s.i := rfl
@[simp] theorem State.pop_pc (s : State) :
    s.pop.pc = s.pc := rfl
@[simp] theorem State.pop_stack (s : State) :
    s.pop.stack = s.stack := rfl
@[simp] theorem State.pop_sp (s : State) :
    s.pop.sp = ⟨s.sp.val - 1, by omega⟩ := rfl
@[simp] theorem State.pop_dt (s : State) :
    s.pop.dt = s.dt := rfl
@[simp] theorem State.pop_st (s : State) :
    s.pop.st = s.st := rfl
@[simp] theorem State.pop_fb (s : State) :
    s.pop.fb = s.fb := rfl
@[simp] theorem State.pop_dirty (s : State) :
    s.pop.dirty = s.dirty := rfl
@[simp] theorem State.pop_key (s : State) :
    s.pop.key = s.key := rfl
@[simp] theorem State.pop_kw (s : State) :
    s.pop.kw = s.kw := rfl
@[simp] theorem State.pop_mem (s : State) :
    s.pop.mem = s.mem := rfl
@[simp] theorem State.pop_out (s : State) :
    s.pop.out = s.out := rfl
@[simp] theorem State.pop_host (s : State) :
    s.pop.host = s.host := rfl
@[simp] theorem State.pop_rnd (s : State) :
    s.pop.rnd = s.rnd := rfl
@[simp] theorem State.pop_rndIndex (s : State) :
    s.pop.rndIndex = s.rndIndex := rfl

/-! ### `State.writeKw` -/

@[simp] theorem State.writeKw_v (s : State) (l : Latch) :
    (s.writeKw l).v = s.v := rfl
@[simp] theorem State.writeKw_i (s : State) (l : Latch) :
    (s.writeKw l).i = s.i := rfl
@[simp] theorem State.writeKw_pc (s : State) (l : Latch) :
    (s.writeKw l).pc = s.pc := rfl
@[simp] theorem State.writeKw_stack (s : State) (l : Latch) :
    (s.writeKw l).stack = s.stack := rfl
@[simp] theorem State.writeKw_sp (s : State) (l : Latch) :
    (s.writeKw l).sp = s.sp := rfl
@[simp] theorem State.writeKw_dt (s : State) (l : Latch) :
    (s.writeKw l).dt = s.dt := rfl
@[simp] theorem State.writeKw_st (s : State) (l : Latch) :
    (s.writeKw l).st = s.st := rfl
@[simp] theorem State.writeKw_fb (s : State) (l : Latch) :
    (s.writeKw l).fb = s.fb := rfl
@[simp] theorem State.writeKw_dirty (s : State) (l : Latch) :
    (s.writeKw l).dirty = s.dirty := rfl
@[simp] theorem State.writeKw_key (s : State) (l : Latch) :
    (s.writeKw l).key = s.key := rfl
@[simp] theorem State.writeKw_kw (s : State) (l : Latch) :
    (s.writeKw l).kw = l := rfl
@[simp] theorem State.writeKw_mem (s : State) (l : Latch) :
    (s.writeKw l).mem = s.mem := rfl
@[simp] theorem State.writeKw_out (s : State) (l : Latch) :
    (s.writeKw l).out = s.out := rfl
@[simp] theorem State.writeKw_host (s : State) (l : Latch) :
    (s.writeKw l).host = s.host := rfl
@[simp] theorem State.writeKw_rnd (s : State) (l : Latch) :
    (s.writeKw l).rnd = s.rnd := rfl
@[simp] theorem State.writeKw_rndIndex (s : State) (l : Latch) :
    (s.writeKw l).rndIndex = s.rndIndex := rfl

/-! ### `State.writeDt` -/

@[simp] theorem State.writeDt_v (s : State) (b : Byte) :
    (s.writeDt b).v = s.v := rfl
@[simp] theorem State.writeDt_i (s : State) (b : Byte) :
    (s.writeDt b).i = s.i := rfl
@[simp] theorem State.writeDt_pc (s : State) (b : Byte) :
    (s.writeDt b).pc = s.pc := rfl
@[simp] theorem State.writeDt_stack (s : State) (b : Byte) :
    (s.writeDt b).stack = s.stack := rfl
@[simp] theorem State.writeDt_sp (s : State) (b : Byte) :
    (s.writeDt b).sp = s.sp := rfl
@[simp] theorem State.writeDt_dt (s : State) (b : Byte) :
    (s.writeDt b).dt = b := rfl
@[simp] theorem State.writeDt_st (s : State) (b : Byte) :
    (s.writeDt b).st = s.st := rfl
@[simp] theorem State.writeDt_fb (s : State) (b : Byte) :
    (s.writeDt b).fb = s.fb := rfl
@[simp] theorem State.writeDt_dirty (s : State) (b : Byte) :
    (s.writeDt b).dirty = s.dirty := rfl
@[simp] theorem State.writeDt_key (s : State) (b : Byte) :
    (s.writeDt b).key = s.key := rfl
@[simp] theorem State.writeDt_kw (s : State) (b : Byte) :
    (s.writeDt b).kw = s.kw := rfl
@[simp] theorem State.writeDt_mem (s : State) (b : Byte) :
    (s.writeDt b).mem = s.mem := rfl
@[simp] theorem State.writeDt_out (s : State) (b : Byte) :
    (s.writeDt b).out = s.out := rfl
@[simp] theorem State.writeDt_host (s : State) (b : Byte) :
    (s.writeDt b).host = s.host := rfl
@[simp] theorem State.writeDt_rnd (s : State) (b : Byte) :
    (s.writeDt b).rnd = s.rnd := rfl
@[simp] theorem State.writeDt_rndIndex (s : State) (b : Byte) :
    (s.writeDt b).rndIndex = s.rndIndex := rfl

/-! ### `State.writeSt` -/

@[simp] theorem State.writeSt_v (s : State) (b : Byte) :
    (s.writeSt b).v = s.v := rfl
@[simp] theorem State.writeSt_i (s : State) (b : Byte) :
    (s.writeSt b).i = s.i := rfl
@[simp] theorem State.writeSt_pc (s : State) (b : Byte) :
    (s.writeSt b).pc = s.pc := rfl
@[simp] theorem State.writeSt_stack (s : State) (b : Byte) :
    (s.writeSt b).stack = s.stack := rfl
@[simp] theorem State.writeSt_sp (s : State) (b : Byte) :
    (s.writeSt b).sp = s.sp := rfl
@[simp] theorem State.writeSt_dt (s : State) (b : Byte) :
    (s.writeSt b).dt = s.dt := rfl
@[simp] theorem State.writeSt_st (s : State) (b : Byte) :
    (s.writeSt b).st = b := rfl
@[simp] theorem State.writeSt_fb (s : State) (b : Byte) :
    (s.writeSt b).fb = s.fb := rfl
@[simp] theorem State.writeSt_dirty (s : State) (b : Byte) :
    (s.writeSt b).dirty = s.dirty := rfl
@[simp] theorem State.writeSt_key (s : State) (b : Byte) :
    (s.writeSt b).key = s.key := rfl
@[simp] theorem State.writeSt_kw (s : State) (b : Byte) :
    (s.writeSt b).kw = s.kw := rfl
@[simp] theorem State.writeSt_mem (s : State) (b : Byte) :
    (s.writeSt b).mem = s.mem := rfl
@[simp] theorem State.writeSt_out (s : State) (b : Byte) :
    (s.writeSt b).out = s.out := rfl
@[simp] theorem State.writeSt_host (s : State) (b : Byte) :
    (s.writeSt b).host = s.host := rfl
@[simp] theorem State.writeSt_rnd (s : State) (b : Byte) :
    (s.writeSt b).rnd = s.rnd := rfl
@[simp] theorem State.writeSt_rndIndex (s : State) (b : Byte) :
    (s.writeSt b).rndIndex = s.rndIndex := rfl

/-! ### `State.writeFb` -/

@[simp] theorem State.writeFb_v (s : State) (fb : FrameBuffer) :
    (s.writeFb fb).v = s.v := rfl
@[simp] theorem State.writeFb_i (s : State) (fb : FrameBuffer) :
    (s.writeFb fb).i = s.i := rfl
@[simp] theorem State.writeFb_pc (s : State) (fb : FrameBuffer) :
    (s.writeFb fb).pc = s.pc := rfl
@[simp] theorem State.writeFb_stack (s : State) (fb : FrameBuffer) :
    (s.writeFb fb).stack = s.stack := rfl
@[simp] theorem State.writeFb_sp (s : State) (fb : FrameBuffer) :
    (s.writeFb fb).sp = s.sp := rfl
@[simp] theorem State.writeFb_dt (s : State) (fb : FrameBuffer) :
    (s.writeFb fb).dt = s.dt := rfl
@[simp] theorem State.writeFb_st (s : State) (fb : FrameBuffer) :
    (s.writeFb fb).st = s.st := rfl
@[simp] theorem State.writeFb_fb (s : State) (fb : FrameBuffer) :
    (s.writeFb fb).fb = fb := rfl
@[simp] theorem State.writeFb_dirty (s : State) (fb : FrameBuffer) :
    (s.writeFb fb).dirty = true := rfl
@[simp] theorem State.writeFb_key (s : State) (fb : FrameBuffer) :
    (s.writeFb fb).key = s.key := rfl
@[simp] theorem State.writeFb_kw (s : State) (fb : FrameBuffer) :
    (s.writeFb fb).kw = s.kw := rfl
@[simp] theorem State.writeFb_mem (s : State) (fb : FrameBuffer) :
    (s.writeFb fb).mem = s.mem := rfl
@[simp] theorem State.writeFb_out (s : State) (fb : FrameBuffer) :
    (s.writeFb fb).out = s.out := rfl
@[simp] theorem State.writeFb_host (s : State) (fb : FrameBuffer) :
    (s.writeFb fb).host = s.host := rfl
@[simp] theorem State.writeFb_rnd (s : State) (fb : FrameBuffer) :
    (s.writeFb fb).rnd = s.rnd := rfl
@[simp] theorem State.writeFb_rndIndex (s : State) (fb : FrameBuffer) :
    (s.writeFb fb).rndIndex = s.rndIndex := rfl

/-! ### `State.store` -/

@[simp] theorem State.store_v (s : State) (a : Nat) (bs : List Byte) :
    (s.store a bs).v = s.v := rfl
@[simp] theorem State.store_i (s : State) (a : Nat) (bs : List Byte) :
    (s.store a bs).i = s.i := rfl
@[simp] theorem State.store_pc (s : State) (a : Nat) (bs : List Byte) :
    (s.store a bs).pc = s.pc := rfl
@[simp] theorem State.store_stack (s : State) (a : Nat) (bs : List Byte) :
    (s.store a bs).stack = s.stack := rfl
@[simp] theorem State.store_sp (s : State) (a : Nat) (bs : List Byte) :
    (s.store a bs).sp = s.sp := rfl
@[simp] theorem State.store_dt (s : State) (a : Nat) (bs : List Byte) :
    (s.store a bs).dt = s.dt := rfl
@[simp] theorem State.store_st (s : State) (a : Nat) (bs : List Byte) :
    (s.store a bs).st = s.st := rfl
@[simp] theorem State.store_fb (s : State) (a : Nat) (bs : List Byte) :
    (s.store a bs).fb = s.fb := rfl
@[simp] theorem State.store_dirty (s : State) (a : Nat) (bs : List Byte) :
    (s.store a bs).dirty = s.dirty := rfl
@[simp] theorem State.store_key (s : State) (a : Nat) (bs : List Byte) :
    (s.store a bs).key = s.key := rfl
@[simp] theorem State.store_kw (s : State) (a : Nat) (bs : List Byte) :
    (s.store a bs).kw = s.kw := rfl
@[simp] theorem State.store_mem (s : State) (a : Nat) (bs : List Byte) :
    (s.store a bs).mem = s.mem.writeBytes a bs := rfl
@[simp] theorem State.store_out (s : State) (a : Nat) (bs : List Byte) :
    (s.store a bs).out = s.out := rfl
@[simp] theorem State.store_host (s : State) (a : Nat) (bs : List Byte) :
    (s.store a bs).host = s.host := rfl
@[simp] theorem State.store_rnd (s : State) (a : Nat) (bs : List Byte) :
    (s.store a bs).rnd = s.rnd := rfl
@[simp] theorem State.store_rndIndex (s : State) (a : Nat) (bs : List Byte) :
    (s.store a bs).rndIndex = s.rndIndex := rfl

/-! ### `State.loadFirst` -/

@[simp] theorem State.loadFirst_v (s : State) (a n : Nat) :
    (s.loadFirst a n).v = loadRegs s.mem a s.v n := rfl
@[simp] theorem State.loadFirst_i (s : State) (a n : Nat) :
    (s.loadFirst a n).i = s.i := rfl
@[simp] theorem State.loadFirst_pc (s : State) (a n : Nat) :
    (s.loadFirst a n).pc = s.pc := rfl
@[simp] theorem State.loadFirst_stack (s : State) (a n : Nat) :
    (s.loadFirst a n).stack = s.stack := rfl
@[simp] theorem State.loadFirst_sp (s : State) (a n : Nat) :
    (s.loadFirst a n).sp = s.sp := rfl
@[simp] theorem State.loadFirst_dt (s : State) (a n : Nat) :
    (s.loadFirst a n).dt = s.dt := rfl
@[simp] theorem State.loadFirst_st (s : State) (a n : Nat) :
    (s.loadFirst a n).st = s.st := rfl
@[simp] theorem State.loadFirst_fb (s : State) (a n : Nat) :
    (s.loadFirst a n).fb = s.fb := rfl
@[simp] theorem State.loadFirst_dirty (s : State) (a n : Nat) :
    (s.loadFirst a n).dirty = s.dirty := rfl
@[simp] theorem State.loadFirst_key (s : State) (a n : Nat) :
    (s.loadFirst a n).key = s.key := rfl
@[simp] theorem State.loadFirst_kw (s : State) (a n : Nat) :
    (s.loadFirst a n).kw = s.kw := rfl
@[simp] theorem State.loadFirst_mem (s : State) (a n : Nat) :
    (s.loadFirst a n).mem = s.mem := rfl
@[simp] theorem State.loadFirst_out (s : State) (a n : Nat) :
    (s.loadFirst a n).out = s.out := rfl
@[simp] theorem State.loadFirst_host (s : State) (a n : Nat) :
    (s.loadFirst a n).host = s.host := rfl
@[simp] theorem State.loadFirst_rnd (s : State) (a n : Nat) :
    (s.loadFirst a n).rnd = s.rnd := rfl
@[simp] theorem State.loadFirst_rndIndex (s : State) (a n : Nat) :
    (s.loadFirst a n).rndIndex = s.rndIndex := rfl

/-! ### `State.advanceI` -/

@[simp] theorem State.advanceI_v (s : State) (n : Nat) :
    (s.advanceI n).v = s.v := rfl
@[simp] theorem State.advanceI_i (s : State) (n : Nat) :
    (s.advanceI n).i = s.i + BitVec.ofNat 16 n := rfl
@[simp] theorem State.advanceI_pc (s : State) (n : Nat) :
    (s.advanceI n).pc = s.pc := rfl
@[simp] theorem State.advanceI_stack (s : State) (n : Nat) :
    (s.advanceI n).stack = s.stack := rfl
@[simp] theorem State.advanceI_sp (s : State) (n : Nat) :
    (s.advanceI n).sp = s.sp := rfl
@[simp] theorem State.advanceI_dt (s : State) (n : Nat) :
    (s.advanceI n).dt = s.dt := rfl
@[simp] theorem State.advanceI_st (s : State) (n : Nat) :
    (s.advanceI n).st = s.st := rfl
@[simp] theorem State.advanceI_fb (s : State) (n : Nat) :
    (s.advanceI n).fb = s.fb := rfl
@[simp] theorem State.advanceI_dirty (s : State) (n : Nat) :
    (s.advanceI n).dirty = s.dirty := rfl
@[simp] theorem State.advanceI_key (s : State) (n : Nat) :
    (s.advanceI n).key = s.key := rfl
@[simp] theorem State.advanceI_kw (s : State) (n : Nat) :
    (s.advanceI n).kw = s.kw := rfl
@[simp] theorem State.advanceI_mem (s : State) (n : Nat) :
    (s.advanceI n).mem = s.mem := rfl
@[simp] theorem State.advanceI_out (s : State) (n : Nat) :
    (s.advanceI n).out = s.out := rfl
@[simp] theorem State.advanceI_host (s : State) (n : Nat) :
    (s.advanceI n).host = s.host := rfl
@[simp] theorem State.advanceI_rnd (s : State) (n : Nat) :
    (s.advanceI n).rnd = s.rnd := rfl
@[simp] theorem State.advanceI_rndIndex (s : State) (n : Nat) :
    (s.advanceI n).rndIndex = s.rndIndex := rfl

/-! ### `State.writeVFlag`: only `v` changes -/

@[simp] theorem State.writeVFlag_v (s : State) (x : Reg) (b : Byte) (c : Bool) :
    (s.writeVFlag x b c).v = (s.v.set x b).set vf (flagByte c) := rfl
@[simp] theorem State.writeVFlag_i (s : State) (x : Reg) (b : Byte) (c : Bool) :
    (s.writeVFlag x b c).i = s.i := rfl
@[simp] theorem State.writeVFlag_pc (s : State) (x : Reg) (b : Byte) (c : Bool) :
    (s.writeVFlag x b c).pc = s.pc := rfl
@[simp] theorem State.writeVFlag_stack (s : State) (x : Reg) (b : Byte) (c : Bool) :
    (s.writeVFlag x b c).stack = s.stack := rfl
@[simp] theorem State.writeVFlag_sp (s : State) (x : Reg) (b : Byte) (c : Bool) :
    (s.writeVFlag x b c).sp = s.sp := rfl
@[simp] theorem State.writeVFlag_dt (s : State) (x : Reg) (b : Byte) (c : Bool) :
    (s.writeVFlag x b c).dt = s.dt := rfl
@[simp] theorem State.writeVFlag_st (s : State) (x : Reg) (b : Byte) (c : Bool) :
    (s.writeVFlag x b c).st = s.st := rfl
@[simp] theorem State.writeVFlag_fb (s : State) (x : Reg) (b : Byte) (c : Bool) :
    (s.writeVFlag x b c).fb = s.fb := rfl
@[simp] theorem State.writeVFlag_dirty (s : State) (x : Reg) (b : Byte) (c : Bool) :
    (s.writeVFlag x b c).dirty = s.dirty := rfl
@[simp] theorem State.writeVFlag_key (s : State) (x : Reg) (b : Byte) (c : Bool) :
    (s.writeVFlag x b c).key = s.key := rfl
@[simp] theorem State.writeVFlag_kw (s : State) (x : Reg) (b : Byte) (c : Bool) :
    (s.writeVFlag x b c).kw = s.kw := rfl
@[simp] theorem State.writeVFlag_mem (s : State) (x : Reg) (b : Byte) (c : Bool) :
    (s.writeVFlag x b c).mem = s.mem := rfl
@[simp] theorem State.writeVFlag_out (s : State) (x : Reg) (b : Byte) (c : Bool) :
    (s.writeVFlag x b c).out = s.out := rfl
@[simp] theorem State.writeVFlag_host (s : State) (x : Reg) (b : Byte) (c : Bool) :
    (s.writeVFlag x b c).host = s.host := rfl
@[simp] theorem State.writeVFlag_rnd (s : State) (x : Reg) (b : Byte) (c : Bool) :
    (s.writeVFlag x b c).rnd = s.rnd := rfl
@[simp] theorem State.writeVFlag_rndIndex (s : State) (x : Reg) (b : Byte) (c : Bool) :
    (s.writeVFlag x b c).rndIndex = s.rndIndex := rfl

/-! ### `State.skipIf`: only `pc` changes -/

@[simp] theorem State.skipIf_v (s : State) (c : Bool) :
    (s.skipIf c).v = s.v := by cases c <;> rfl
@[simp] theorem State.skipIf_i (s : State) (c : Bool) :
    (s.skipIf c).i = s.i := by cases c <;> rfl
@[simp] theorem State.skipIf_pc (s : State) (c : Bool) :
    (s.skipIf c).pc = if c then s.pc + 2 else s.pc := by cases c <;> rfl
@[simp] theorem State.skipIf_stack (s : State) (c : Bool) :
    (s.skipIf c).stack = s.stack := by cases c <;> rfl
@[simp] theorem State.skipIf_sp (s : State) (c : Bool) :
    (s.skipIf c).sp = s.sp := by cases c <;> rfl
@[simp] theorem State.skipIf_dt (s : State) (c : Bool) :
    (s.skipIf c).dt = s.dt := by cases c <;> rfl
@[simp] theorem State.skipIf_st (s : State) (c : Bool) :
    (s.skipIf c).st = s.st := by cases c <;> rfl
@[simp] theorem State.skipIf_fb (s : State) (c : Bool) :
    (s.skipIf c).fb = s.fb := by cases c <;> rfl
@[simp] theorem State.skipIf_dirty (s : State) (c : Bool) :
    (s.skipIf c).dirty = s.dirty := by cases c <;> rfl
@[simp] theorem State.skipIf_key (s : State) (c : Bool) :
    (s.skipIf c).key = s.key := by cases c <;> rfl
@[simp] theorem State.skipIf_kw (s : State) (c : Bool) :
    (s.skipIf c).kw = s.kw := by cases c <;> rfl
@[simp] theorem State.skipIf_mem (s : State) (c : Bool) :
    (s.skipIf c).mem = s.mem := by cases c <;> rfl
@[simp] theorem State.skipIf_out (s : State) (c : Bool) :
    (s.skipIf c).out = s.out := by cases c <;> rfl
@[simp] theorem State.skipIf_host (s : State) (c : Bool) :
    (s.skipIf c).host = s.host := by cases c <;> rfl
@[simp] theorem State.skipIf_rnd (s : State) (c : Bool) :
    (s.skipIf c).rnd = s.rnd := by cases c <;> rfl
@[simp] theorem State.skipIf_rndIndex (s : State) (c : Bool) :
    (s.skipIf c).rndIndex = s.rndIndex := by cases c <;> rfl

/-! ### Reading a register after an update -/

theorem State.readV_writeV (s : State) (x k : Reg) (b : Byte) :
    (s.writeV x b).readV k = if k = x then b else s.readV k := by
  simp only [State.readV, State.writeV_v, Fin.getElem_fin, Vector.getElem_set, Fin.ext_iff]
  by_cases h : x.val = k.val
  · simp [h]
  · simp [h, Ne.symm h]

@[simp] theorem State.readV_writeV_self (s : State) (x : Reg) (b : Byte) : (s.writeV x b).readV x = b := by
  simp [State.readV_writeV]

theorem State.readV_writeVFlag (s : State) (x k : Reg) (b : Byte) (c : Bool) :
    (s.writeVFlag x b c).readV k = if k = vf then flagByte c else if k = x then b else s.readV k := by
  simp only [State.writeVFlag, State.readV_writeV]

@[simp] theorem flagByte_toNat (c : Bool) : (flagByte c).toNat = if c then 1 else 0 := by
  cases c <;> rfl

/-- Two states with the same registers read the same registers. -/
theorem State.readV_congr (s t : State) (h : t.v = s.v) (k : Reg) : t.readV k = s.readV k := by
  simp [State.readV, h]

@[simp] theorem State.readV_writeI (s : State) (w : Word) (k : Reg) :
    (s.writeI w).readV k = s.readV k := rfl
@[simp] theorem State.readV_writePc (s : State) (w : Word) (k : Reg) :
    (s.writePc w).readV k = s.readV k := rfl
@[simp] theorem State.readV_report (s : State) (d : Diagnostic) (k : Reg) :
    (s.report d).readV k = s.readV k := rfl
@[simp] theorem State.readV_beginCycle (s : State) (r : Option Byte) (k : Reg) :
    (s.beginCycle r).readV k = s.readV k := rfl
@[simp] theorem State.readV_nextDraw (s : State) (k : Reg) :
    s.nextDraw.readV k = s.readV k := rfl
@[simp] theorem State.readV_again (s : State) (k : Reg) :
    s.again.readV k = s.readV k := rfl
@[simp] theorem State.readV_push (s : State) (w : Word) (h : s.sp.val < 12) (k : Reg) :
    (s.push w h).readV k = s.readV k := rfl
@[simp] theorem State.readV_pop (s : State) (k : Reg) :
    s.pop.readV k = s.readV k := rfl
@[simp] theorem State.readV_writeKw (s : State) (l : Latch) (k : Reg) :
    (s.writeKw l).readV k = s.readV k := rfl
@[simp] theorem State.readV_writeDt (s : State) (b : Byte) (k : Reg) :
    (s.writeDt b).readV k = s.readV k := rfl
@[simp] theorem State.readV_writeSt (s : State) (b : Byte) (k : Reg) :
    (s.writeSt b).readV k = s.readV k := rfl
@[simp] theorem State.readV_writeFb (s : State) (fb : FrameBuffer) (k : Reg) :
    (s.writeFb fb).readV k = s.readV k := rfl
@[simp] theorem State.readV_store (s : State) (a : Nat) (bs : List Byte) (k : Reg) :
    (s.store a bs).readV k = s.readV k := rfl
@[simp] theorem State.readV_advanceI (s : State) (n : Nat) (k : Reg) :
    (s.advanceI n).readV k = s.readV k := rfl
@[simp] theorem State.readV_skipIf (s : State) (c : Bool) (k : Reg) :
    (s.skipIf c).readV k = s.readV k := by cases c <;> rfl

end Sys2Proof.Machine
end

