-- ==== Sys2Proof/Laws/Ops.lean ====
section
/-! SUPPORT. For each shared operation of `Machine/Ops.lean` and `Machine/Operands.lean`, one lemma that
says everything it can do. -/

namespace Sys2Proof.Machine

/-! ### The bounds check -/

theorem outOfBounds_eq_none {first len : Nat} :
    outOfBounds first len = none ↔ len = 0 ∨ first + len ≤ 0x1000 := by
  unfold outOfBounds
  rw [Config.memSize_eq]
  split
  · simp; omega
  · simp; omega

theorem outOfBounds_eq_some {first len addr : Nat} :
    outOfBounds first len = some addr ↔ 0 < len ∧ 0x1000 < first + len ∧ addr = max first 0x1000 := by
  unfold outOfBounds
  rw [Config.memSize_eq]
  split
  · rename_i h
    simp only [Option.some.injEq, h.1, true_and]
    exact ⟨fun e => ⟨h.2, e.symm⟩, fun e => e.2.symm⟩
  · simp; omega

theorem checkRange_next {first len : Nat} {n t : State} :
    checkRange first len n = .next t ↔ outOfBounds first len = none ∧ t = n := by
  unfold checkRange
  cases outOfBounds first len <;> simp [eq_comm]

theorem checkRange_fault {first len : Nat} {n : State} {f : Fault} :
    checkRange first len n = .fault f ↔ ∃ addr, outOfBounds first len = some addr ∧ f = .memoryBounds addr := by
  unfold checkRange
  cases outOfBounds first len <;> simp [eq_comm]

theorem checkRange_not_refused {first len : Nat} {n : State} {r : Refusal} :
    checkRange first len n ≠ .refused r := by
  unfold checkRange
  cases outOfBounds first len <;> simp

/-! ### The keypad -/

theorem withKey_next {value : Byte} {next : Fin 16 → State} {t : State} :
    withKey value next = .next t ↔ ∃ h : value.toNat < 16, t = next ⟨value.toNat, h⟩ := by
  unfold withKey
  split <;> simp [*, eq_comm]

theorem withKey_fault {value : Byte} {next : Fin 16 → State} {f : Fault} :
    withKey value next = .fault f ↔ 16 ≤ value.toNat ∧ f = .keypadIndex value := by
  unfold withKey
  split
  · simp; omega
  · simp only [Host.Outcome.fault.injEq]
    constructor
    · intro e; exact ⟨by omega, e.symm⟩
    · intro e; exact e.2.symm

theorem withKey_not_refused {value : Byte} {next : Fin 16 → State} {r : Refusal} :
    withKey value next ≠ .refused r := by
  unfold withKey
  split <;> simp

theorem leastPressed_eq_some {key : Vector Bool 16} {k : Fin 16} :
    leastPressed key = some k ↔ key[k] = true ∧ ∀ j : Fin 16, j < k → key[j] = false := by
  simp only [leastPressed, List.find?_eq_some_iff_getElem, List.length_finRange, List.getElem_finRange]
  constructor
  · rintro ⟨h, n, hn, rfl, hb⟩
    refine ⟨h, fun j hj => ?_⟩
    have := hb j.val (by simpa [Fin.lt_def] using hj)
    simpa using this
  · rintro ⟨h, hb⟩
    refine ⟨h, k.val, k.isLt, by simp, fun j hj => ?_⟩
    have := hb ⟨j, by omega⟩ (by simpa [Fin.lt_def] using hj)
    simpa using this

theorem leastPressed_eq_none {key : Vector Bool 16} :
    leastPressed key = none ↔ ∀ k : Fin 16, key[k] = false := by
  simp [leastPressed]

/-! ### Transfers -/

@[simp] theorem State.firstRegs_length (s : State) (n : Nat) (h : n ≤ 16) : (s.firstRegs n).length = n := by
  simp [State.firstRegs, h]

theorem State.getElem_firstRegs (s : State) (n k : Nat) (h : k < (s.firstRegs n).length) (hk : k < 16) :
    (s.firstRegs n)[k] = s.readV ⟨k, hk⟩ := by
  simp [State.firstRegs, State.readV]

theorem getElem_loadRegs (m : Memory) (a : Nat) (v : Vector Byte 16) (n : Nat) (hn : n ≤ 16) (k : Reg) :
    (loadRegs m a v n)[k] = if k.val < n then m.read (a + k.val) else v[k] := by
  induction n with
  | zero => simp [loadRegs]
  | succ n ih =>
    have ih := ih (by omega)
    simp only [Fin.getElem_fin] at ih ⊢
    simp only [loadRegs, Vector.getElem_setIfInBounds]
    by_cases h : n = k.val
    · simp [h]
    · rw [if_neg h, ih]
      by_cases h' : k.val < n
      · rw [if_pos h', if_pos (by omega)]
      · rw [if_neg h', if_neg (by omega)]

@[simp] theorem bcdDigits_length (b : Byte) : (bcdDigits b).length = 3 := rfl

/-! ### Pixels and the sprite -/

theorem FrameBuffer.pixel_flip (fb : FrameBuffer) (x y x' y' : Nat) :
    (fb.flip x y).pixel x' y' = (fb.pixel x' y' ^^ decide (x' = x ∧ y' = y ∧ x < 64 ∧ y < 32)) := by
  unfold FrameBuffer.flip FrameBuffer.pixel
  by_cases hy' : y' < 32
  · by_cases hy : y < 32
    · simp only [hy, hy', dif_pos, Vector.getElem_set]
      by_cases h : y = y'
      · subst h
        simp only [if_true, BitVec.getLsbD_xor, BitVec.getLsbD_shiftLeft, BitVec.getLsbD_one]
        congr 1
        by_cases hx : x' = x
        · subst hx; simp
        · have : ¬ (x' < 64 ∧ ¬ x' < x ∧ x' - x = 0) := by omega
          simp only [hx, false_and, decide_false]
          by_cases h1 : x' < 64 <;> by_cases h2 : x' < x <;> simp [h1, h2]
          omega
      · simp [h, Ne.symm h]
    · simp [hy]
  · simp only [hy', dif_neg, not_false_eq_true, Bool.false_xor]
    symm
    simp
    omega

theorem Drawing.plot_pixel (d : Drawing) (x y x' y' : Nat) :
    (d.plot x y).fb.pixel x' y' = (d.fb.pixel x' y' ^^ decide (x' = x ∧ y' = y ∧ x < 64 ∧ y < 32)) := by
  unfold Drawing.plot
  split
  · exact FrameBuffer.pixel_flip ..
  · have : ¬ (x < 64) := by omega
    simp [this]

theorem Drawing.plot_hit (d : Drawing) (x y : Nat) :
    (d.plot x y).hit = (d.hit || (decide (x < 64) && d.fb.pixel x y)) := by
  unfold Drawing.plot
  split
  · have : x < 64 := by omega
    simp [this]
  · have : ¬ (x < 64) := by omega
    simp [this]

/-- The pixels after the columns `0..n-1` of one row: those under a 1 bit of the row are inverted. -/
theorem Drawing.columns_pixel (d : Drawing) (row : Byte) (x0 y n : Nat) (x' y' : Nat) :
    (d.columns row x0 y n).fb.pixel x' y' = (d.fb.pixel x' y' ^^
      (decide (x0 ≤ x' ∧ x' < x0 + n ∧ y' = y ∧ x' < 64 ∧ y < 32) && row.getLsbD (7 - (x' - x0)))) := by
  induction n with
  | zero =>
    have : ¬ (x0 ≤ x' ∧ x' < x0 + 0 ∧ y' = y ∧ x' < 64 ∧ y < 32) := by omega
    simp only [Drawing.columns, this, decide_false, Bool.false_and, Bool.xor_false]
  | succ n ih =>
    have key : (if row.getLsbD (7 - n) = true then (d.columns row x0 y n).plot (x0 + n) y
        else d.columns row x0 y n).fb.pixel x' y' = ((d.columns row x0 y n).fb.pixel x' y' ^^
          (decide (x' = x0 + n ∧ y' = y ∧ x0 + n < 64 ∧ y < 32) && row.getLsbD (7 - n))) := by
      split
      · rename_i hb
        rw [Drawing.plot_pixel, hb, Bool.and_true]
      · rename_i hb
        simp [hb]
    simp only [Drawing.columns]
    rw [key, ih, Bool.xor_assoc]
    congr 1
    by_cases hx : x' = x0 + n
    · subst hx
      have h1 : ¬ (x0 ≤ x0 + n ∧ x0 + n < x0 + n ∧ y' = y ∧ x0 + n < 64 ∧ y < 32) := by omega
      have h2 : 7 - (x0 + n - x0) = 7 - n := by omega
      have h3 : (x0 ≤ x0 + n ∧ x0 + n < x0 + (n + 1) ∧ y' = y ∧ x0 + n < 64 ∧ y < 32) ↔
          (x0 + n = x0 + n ∧ y' = y ∧ x0 + n < 64 ∧ y < 32) := by omega
      simp only [h1, decide_false, Bool.false_and, Bool.false_xor, h2, decide_eq_decide.mpr h3]
    · have h1 : ¬ (x' = x0 + n ∧ y' = y ∧ x0 + n < 64 ∧ y < 32) := by omega
      have h3 : (x0 ≤ x' ∧ x' < x0 + (n + 1) ∧ y' = y ∧ x' < 64 ∧ y < 32) ↔
          (x0 ≤ x' ∧ x' < x0 + n ∧ y' = y ∧ x' < 64 ∧ y < 32) := by omega
      simp only [h1, decide_false, Bool.false_and, Bool.xor_false, decide_eq_decide.mpr h3]

/-- A collision in the columns `0..n-1` of one row: a 1 bit of the row on a pixel that was set. -/
theorem Drawing.columns_hit (d : Drawing) (row : Byte) (x0 y n : Nat) :
    (d.columns row x0 y n).hit = true ↔ d.hit = true ∨
      ∃ c < n, row.getLsbD (7 - c) = true ∧ x0 + c < 64 ∧ d.fb.pixel (x0 + c) y = true := by
  induction n with
  | zero => simp [Drawing.columns]
  | succ n ih =>
    have hp : (d.columns row x0 y n).fb.pixel (x0 + n) y = d.fb.pixel (x0 + n) y := by
      have : ¬ (x0 ≤ x0 + n ∧ x0 + n < x0 + n ∧ y = y ∧ x0 + n < 64 ∧ y < 32) := by omega
      rw [Drawing.columns_pixel, decide_eq_false this, Bool.false_and, Bool.xor_false]
    simp only [Drawing.columns]
    split
    · rename_i hb
      rw [Drawing.plot_hit, Bool.or_eq_true, ih, hp, Bool.and_eq_true, decide_eq_true_eq]
      constructor
      · rintro ((h | ⟨c, hc, h⟩) | h)
        · exact .inl h
        · exact .inr ⟨c, by omega, h⟩
        · exact .inr ⟨n, by omega, hb, h⟩
      · rintro (h | ⟨c, hc, h⟩)
        · exact .inl (.inl h)
        · by_cases e : c = n
          · subst e; exact .inr h.2
          · exact .inl (.inr ⟨c, by omega, h⟩)
    · rename_i hb
      rw [ih]
      constructor
      · rintro (h | ⟨c, hc, h⟩)
        · exact .inl h
        · exact .inr ⟨c, by omega, h⟩
      · rintro (h | ⟨c, hc, h⟩)
        · exact .inl h
        · by_cases e : c = n
          · subst e; exact absurd h.1 hb
          · exact .inr ⟨c, by omega, h⟩

/-- The pixels after the rows `0..n-1` of the sprite at `a`: those under a 1 bit of the sprite are
inverted; the sprite is clipped at the right and bottom edges. -/
theorem Drawing.rows_pixel (d : Drawing) (m : Memory) (a x0 y0 n : Nat) (x' y' : Nat) :
    (d.rows m a x0 y0 n).fb.pixel x' y' = (d.fb.pixel x' y' ^^
      (decide (x0 ≤ x' ∧ x' < x0 + 8 ∧ y0 ≤ y' ∧ y' < y0 + n ∧ x' < 64 ∧ y' < 32) &&
        (m.read (a + (y' - y0))).getLsbD (7 - (x' - x0)))) := by
  induction n with
  | zero =>
    have : ¬ (x0 ≤ x' ∧ x' < x0 + 8 ∧ y0 ≤ y' ∧ y' < y0 + 0 ∧ x' < 64 ∧ y' < 32) := by omega
    simp only [Drawing.rows, this, decide_false, Bool.false_and, Bool.xor_false]
  | succ n ih =>
    have key : (if y0 + n ≤ 31 then (d.rows m a x0 y0 n).columns (m.read (a + n)) x0 (y0 + n) 8
        else d.rows m a x0 y0 n).fb.pixel x' y' = ((d.rows m a x0 y0 n).fb.pixel x' y' ^^
          (decide (x0 ≤ x' ∧ x' < x0 + 8 ∧ y' = y0 + n ∧ x' < 64 ∧ y0 + n < 32) &&
            (m.read (a + n)).getLsbD (7 - (x' - x0)))) := by
      split
      · rw [Drawing.columns_pixel]
      · have : ¬ (x0 ≤ x' ∧ x' < x0 + 8 ∧ y' = y0 + n ∧ x' < 64 ∧ y0 + n < 32) := by omega
        simp only [this, decide_false, Bool.false_and, Bool.xor_false]
    simp only [Drawing.rows]
    rw [key, ih, Bool.xor_assoc]
    congr 1
    by_cases hy : y' = y0 + n
    · subst hy
      have h1 : ¬ (x0 ≤ x' ∧ x' < x0 + 8 ∧ y0 ≤ y0 + n ∧ y0 + n < y0 + n ∧ x' < 64 ∧ y0 + n < 32) := by omega
      have h2 : y0 + n - y0 = n := by omega
      have h3 : (x0 ≤ x' ∧ x' < x0 + 8 ∧ y0 ≤ y0 + n ∧ y0 + n < y0 + (n + 1) ∧ x' < 64 ∧ y0 + n < 32) ↔
          (x0 ≤ x' ∧ x' < x0 + 8 ∧ y0 + n = y0 + n ∧ x' < 64 ∧ y0 + n < 32) := by omega
      simp only [h1, decide_false, Bool.false_and, Bool.false_xor, h2, decide_eq_decide.mpr h3]
    · have h1 : ¬ (x0 ≤ x' ∧ x' < x0 + 8 ∧ y' = y0 + n ∧ x' < 64 ∧ y0 + n < 32) := by omega
      have h3 : (x0 ≤ x' ∧ x' < x0 + 8 ∧ y0 ≤ y' ∧ y' < y0 + (n + 1) ∧ x' < 64 ∧ y' < 32) ↔
          (x0 ≤ x' ∧ x' < x0 + 8 ∧ y0 ≤ y' ∧ y' < y0 + n ∧ x' < 64 ∧ y' < 32) := by omega
      simp only [h1, decide_false, Bool.false_and, Bool.xor_false, decide_eq_decide.mpr h3]

/-- A collision in the rows `0..n-1`: a 1 bit of the sprite, inside the display, on a pixel that was
set. -/
theorem Drawing.rows_hit (d : Drawing) (m : Memory) (a x0 y0 n : Nat) :
    (d.rows m a x0 y0 n).hit = true ↔ d.hit = true ∨
      ∃ r < n, ∃ c < 8, (m.read (a + r)).getLsbD (7 - c) = true ∧ x0 + c < 64 ∧ y0 + r < 32 ∧
        d.fb.pixel (x0 + c) (y0 + r) = true := by
  induction n with
  | zero => simp [Drawing.rows]
  | succ n ih =>
    have hp : ∀ c, (d.rows m a x0 y0 n).fb.pixel (x0 + c) (y0 + n) = d.fb.pixel (x0 + c) (y0 + n) := by
      intro c
      have : ¬ (x0 ≤ x0 + c ∧ x0 + c < x0 + 8 ∧ y0 ≤ y0 + n ∧ y0 + n < y0 + n ∧ x0 + c < 64 ∧ y0 + n < 32) := by
        omega
      rw [Drawing.rows_pixel, decide_eq_false this, Bool.false_and, Bool.xor_false]
    have key : (if y0 + n ≤ 31 then (d.rows m a x0 y0 n).columns (m.read (a + n)) x0 (y0 + n) 8
        else d.rows m a x0 y0 n).hit = true ↔ (d.rows m a x0 y0 n).hit = true ∨
          ∃ c < 8, (m.read (a + n)).getLsbD (7 - c) = true ∧ x0 + c < 64 ∧ y0 + n < 32 ∧
            d.fb.pixel (x0 + c) (y0 + n) = true := by
      split
      · rename_i h
        rw [Drawing.columns_hit]
        simp only [hp]
        have : y0 + n < 32 := by omega
        simp only [this, true_and]
      · rename_i h
        have : ¬ (y0 + n < 32) := by omega
        simp [this]
    simp only [Drawing.rows]
    rw [key, ih]
    constructor
    · rintro ((h | ⟨r, hr, h⟩) | h)
      · exact .inl h
      · exact .inr ⟨r, by omega, h⟩
      · exact .inr ⟨n, by omega, h⟩
    · rintro (h | ⟨r, hr, h⟩)
      · exact .inl (.inl h)
      · by_cases e : r = n
        · subst e; exact .inr h
        · exact .inl (.inr ⟨r, by omega, h⟩)

end Sys2Proof.Machine
end

