-- ==== Sys2Proof/Laws/Exec.lean ====
section
/-! SUPPORT. What a cycle and a step can do, said once: the lemmas a proof about a run cites instead of
unfolding `cycle`, `nextEvent` or `step`. -/

namespace Sys2Proof.Machine

/-! ### The word fetched -/

theorem execWord_some {op : Word} {i : Instr} (s : State) (h : decodeWord op = some i) :
    execWord op s = exec i s := by
  unfold execWord
  rw [h]

theorem execWord_none {op : Word} (s : State) (h : decodeWord op = none) :
    execWord op s = .next (s.report (.decodeError op s.fetchedFrom)) := by
  unfold execWord
  rw [h]

/-! ### A cycle -/

/-- Where the fetch exists, a cycle does what the fetched word does, on the advanced state. -/
theorem cycle_fetch (r : Option Byte) (s : State) (h : s.pc.toNat ≤ 0xFFE) :
    cycle r s = execWord (fetchWord s) (s.beginCycle r) := by
  unfold cycle
  rw [outOfBounds_eq_none.mpr (by omega)]

/-- Where it does not, the cycle faults with the lowest offending address. -/
theorem cycle_fetch_fault (r : Option Byte) (s : State) (h : 0xFFE < s.pc.toNat) :
    cycle r s = .fault (.memoryBounds (max s.pc.toNat 0x1000)) := by
  unfold cycle
  rw [outOfBounds_eq_some.mpr ⟨by omega, by omega, rfl⟩]

/-- A cycle that completes executed the fetched instruction, or reported an illegal word. -/
theorem cycle_next {r : Option Byte} {s t : State} (h : cycle r s = .next t) :
    s.pc.toNat ≤ 0xFFE ∧
      ((∃ i, decodeWord (fetchWord s) = some i ∧ exec i (s.beginCycle r) = .next t) ∨
        (decodeWord (fetchWord s) = none ∧
          t = (s.beginCycle r).report (.decodeError (fetchWord s) (s.beginCycle r).fetchedFrom))) := by
  by_cases hp : s.pc.toNat ≤ 0xFFE
  · rw [cycle_fetch r s hp] at h
    refine ⟨hp, ?_⟩
    cases hd : decodeWord (fetchWord s) with
    | some i => exact .inl ⟨i, rfl, by rwa [execWord_some _ hd] at h⟩
    | none =>
      rw [execWord_none _ hd] at h
      exact .inr ⟨rfl, (Host.Outcome.next.inj h).symm⟩
  · rw [cycle_fetch_fault r s (by omega)] at h
    cases h

/-! ### A step -/

theorem step_empty {s : State} (h : s.host = []) : step s = cycle none s := by
  unfold step nextEvent
  rw [h]

theorem step_event {s : State} {e : HostEvent} {rest : List HostEvent} (h : s.host = e :: rest) :
    step s = event e { s with host := rest } := by
  unfold step nextEvent
  rw [h]

/-! ### The canonical form of memory -/

/-- Memory lists nothing after reset, so it is in canonical form. -/
theorem wf_reset : Memory.wf State.reset.mem = true := rfl

/-- The store of an instruction keeps the canonical form where its bounds check holds. -/
theorem wf_store {s : State} (h : Memory.wf s.mem = true) (a : Nat) (bs : List Byte)
    (hb : outOfBounds a bs.length = none) (hn : bs ≠ []) : Memory.wf (s.store a bs).mem = true := by
  rw [State.store_mem]
  refine Memory.wf_writeBytes h a bs ?_
  have : bs.length ≠ 0 := by simpa using hn
  rw [outOfBounds_eq_none] at hb
  simp only [Config.memSize_eq]
  omega

end Sys2Proof.Machine
end

