-- ==== Sys2Proof/Laws/PerInstr.lean ====
section
/-! SUPPORT. The per-instruction family `RowSelects`: the word the encoder makes of an instruction is one
that the instruction's own row of the opcode map selects (`30_encoding.md` R94), whatever its operands
are. -/

namespace Sys2Proof.Laws.RowSelects

/-- The row of `i` selects the word of `i`. -/
def Statement (i : Instr) : Prop := i.row.selects (encode i) = true

/-- A word with the row's fixed bits is selected: bit by bit. -/
theorem of_bits {r : OpcodeRow} {op : Word} (h : ∀ j < 16, (op.getLsbD j && r.mask.getLsbD j) = r.sel.getLsbD j) :
    r.selects op = true := by
  simp only [OpcodeRow.selects, beq_iff_eq]
  refine BitVec.eq_of_getLsbD_eq fun j hj => ?_
  rw [BitVec.getLsbD_and, h j hj]

theorem cls : Statement .cls := by unfold Statement; decide

theorem ret : Statement .ret := by unfold Statement; decide

theorem jp (nnn : BitVec 12) : Statement (.jp nnn) := of_bits fun j hj => by
  simp only [encode, getLsbD_packNNN]
  interval_cases j <;> simp [Instr.row]

theorem call (nnn : BitVec 12) : Statement (.call nnn) := of_bits fun j hj => by
  simp only [encode, getLsbD_packNNN]
  interval_cases j <;> simp [Instr.row]

theorem seImm (x : Reg) (nn : Byte) : Statement (.seImm x nn) := of_bits fun j hj => by
  simp only [encode, getLsbD_packXNN]
  interval_cases j <;> simp [Instr.row]

theorem sneImm (x : Reg) (nn : Byte) : Statement (.sneImm x nn) := of_bits fun j hj => by
  simp only [encode, getLsbD_packXNN]
  interval_cases j <;> simp [Instr.row]

theorem seReg (x : Reg) (y : Reg) : Statement (.seReg x y) := of_bits fun j hj => by
  simp only [encode, getLsbD_packXYN]
  interval_cases j <;> simp [Instr.row]

theorem ldImm (x : Reg) (nn : Byte) : Statement (.ldImm x nn) := of_bits fun j hj => by
  simp only [encode, getLsbD_packXNN]
  interval_cases j <;> simp [Instr.row]

theorem addImm (x : Reg) (nn : Byte) : Statement (.addImm x nn) := of_bits fun j hj => by
  simp only [encode, getLsbD_packXNN]
  interval_cases j <;> simp [Instr.row]

theorem ldReg (x : Reg) (y : Reg) : Statement (.ldReg x y) := of_bits fun j hj => by
  simp only [encode, getLsbD_packXYN]
  interval_cases j <;> simp [Instr.row]

theorem or (x : Reg) (y : Reg) : Statement (.or x y) := of_bits fun j hj => by
  simp only [encode, getLsbD_packXYN]
  interval_cases j <;> simp [Instr.row]

theorem and (x : Reg) (y : Reg) : Statement (.and x y) := of_bits fun j hj => by
  simp only [encode, getLsbD_packXYN]
  interval_cases j <;> simp [Instr.row]

theorem xor (x : Reg) (y : Reg) : Statement (.xor x y) := of_bits fun j hj => by
  simp only [encode, getLsbD_packXYN]
  interval_cases j <;> simp [Instr.row]

theorem addReg (x : Reg) (y : Reg) : Statement (.addReg x y) := of_bits fun j hj => by
  simp only [encode, getLsbD_packXYN]
  interval_cases j <;> simp [Instr.row]

theorem sub (x : Reg) (y : Reg) : Statement (.sub x y) := of_bits fun j hj => by
  simp only [encode, getLsbD_packXYN]
  interval_cases j <;> simp [Instr.row]

theorem shr (x : Reg) (y : Reg) : Statement (.shr x y) := of_bits fun j hj => by
  simp only [encode, getLsbD_packXYN]
  interval_cases j <;> simp [Instr.row]

theorem subn (x : Reg) (y : Reg) : Statement (.subn x y) := of_bits fun j hj => by
  simp only [encode, getLsbD_packXYN]
  interval_cases j <;> simp [Instr.row]

theorem shl (x : Reg) (y : Reg) : Statement (.shl x y) := of_bits fun j hj => by
  simp only [encode, getLsbD_packXYN]
  interval_cases j <;> simp [Instr.row]

theorem sneReg (x : Reg) (y : Reg) : Statement (.sneReg x y) := of_bits fun j hj => by
  simp only [encode, getLsbD_packXYN]
  interval_cases j <;> simp [Instr.row]

theorem ldI (nnn : BitVec 12) : Statement (.ldI nnn) := of_bits fun j hj => by
  simp only [encode, getLsbD_packNNN]
  interval_cases j <;> simp [Instr.row]

theorem jpV0 (nnn : BitVec 12) : Statement (.jpV0 nnn) := of_bits fun j hj => by
  simp only [encode, getLsbD_packNNN]
  interval_cases j <;> simp [Instr.row]

theorem rnd (x : Reg) (nn : Byte) : Statement (.rnd x nn) := of_bits fun j hj => by
  simp only [encode, getLsbD_packXNN]
  interval_cases j <;> simp [Instr.row]

theorem drw (x : Reg) (y : Reg) (n : BitVec 4) : Statement (.drw x y n) := of_bits fun j hj => by
  simp only [encode, getLsbD_packXYN]
  interval_cases j <;> simp [Instr.row]

theorem skp (x : Reg) : Statement (.skp x) := of_bits fun j hj => by
  simp only [encode, getLsbD_packXNN]
  interval_cases j <;> simp [Instr.row]

theorem sknp (x : Reg) : Statement (.sknp x) := of_bits fun j hj => by
  simp only [encode, getLsbD_packXNN]
  interval_cases j <;> simp [Instr.row]

theorem ldVxDt (x : Reg) : Statement (.ldVxDt x) := of_bits fun j hj => by
  simp only [encode, getLsbD_packXNN]
  interval_cases j <;> simp [Instr.row]

theorem ldVxK (x : Reg) : Statement (.ldVxK x) := of_bits fun j hj => by
  simp only [encode, getLsbD_packXNN]
  interval_cases j <;> simp [Instr.row]

theorem ldDtVx (x : Reg) : Statement (.ldDtVx x) := of_bits fun j hj => by
  simp only [encode, getLsbD_packXNN]
  interval_cases j <;> simp [Instr.row]

theorem ldStVx (x : Reg) : Statement (.ldStVx x) := of_bits fun j hj => by
  simp only [encode, getLsbD_packXNN]
  interval_cases j <;> simp [Instr.row]

theorem addI (x : Reg) : Statement (.addI x) := of_bits fun j hj => by
  simp only [encode, getLsbD_packXNN]
  interval_cases j <;> simp [Instr.row]

theorem ldF (x : Reg) : Statement (.ldF x) := of_bits fun j hj => by
  simp only [encode, getLsbD_packXNN]
  interval_cases j <;> simp [Instr.row]

theorem ldB (x : Reg) : Statement (.ldB x) := of_bits fun j hj => by
  simp only [encode, getLsbD_packXNN]
  interval_cases j <;> simp [Instr.row]

theorem dump (x : Reg) : Statement (.dump x) := of_bits fun j hj => by
  simp only [encode, getLsbD_packXNN]
  interval_cases j <;> simp [Instr.row]

theorem load (x : Reg) : Statement (.load x) := of_bits fun j hj => by
  simp only [encode, getLsbD_packXNN]
  interval_cases j <;> simp [Instr.row]

end Sys2Proof.Laws.RowSelects
end

