-- ==== Sys2Proof/Tests/Slice0.lean ====
section
/-! SUPPORT. The tests. Every expected value comes from the spec: the words are written out from the
`encoding` column of the opcode map (`30_encoding.md` R94), the one-step tests are vectors of
`95_test_vectors.md`, named in their docstrings, and the witnesses show that the hypotheses of the
statements can be met, at the ends of their ranges. -/

namespace Sys2Proof.Tests

open Sys2Proof Sys2Proof.Machine

/-! ### Helpers -/

/-- The reset state with these registers. -/
def regs (vs : List (Reg × Byte)) : State := vs.foldl (fun s p => s.writeV p.1 p.2) State.reset

/-- The state with these bytes stored at `a`, `a + 1`, ... -/
def withBytes (s : State) (a : Nat) (bs : List Byte) : State := s.store a bs

/-- The state with these pixels on. -/
def withPixels (s : State) (ps : List (Nat × Nat)) : State :=
  { s with fb := ps.foldl (fun fb p => fb.flip p.1 p.2) s.fb }

/-- The state with these keys down. -/
def withKeys (s : State) (ks : List (Fin 16)) : State :=
  { s with key := ks.foldl (fun key k => key.set k.val true k.isLt) s.key }

/-- The state with a stack of depth `sp` in which every slot is `w`. -/
def withStack (s : State) (sp : Fin 13) (w : Word) : State :=
  { s with sp := sp, stack := Vector.replicate 12 w }

/-- The outcome is a next state of which `p` holds. -/
def hasNext (r : Result) (p : State → Bool) : Bool :=
  match r with
  | .next t => p t
  | _ => false

/-- The fault of an outcome, if it is one. -/
def faultIn (r : Result) : Option Fault :=
  match r with
  | .fault f => some f
  | _ => none

/-- The word `w` is stored at `PC` and one step is taken; `p` holds afterwards. -/
def runs (s : State) (w : Nat) (p : State → Bool) : Bool := hasNext (step (s.withFetchWord 16 w)) p

/-- The set pixels of the state are exactly these. -/
def lit (t : State) (ps : List (Nat × Nat)) : Bool := t.fb == (withPixels State.reset ps).fb

/-! ### Decoding: a word of each row, from its `encoding` -/

theorem test_decode_cls : decodeWord 0b0000000011100000 = some .cls := by decide
theorem test_decode_ret : decodeWord 0b0000000011101110 = some .ret := by decide
theorem test_decode_jp : decodeWord 0b0001001000110100 = some (.jp 0x234) := by decide
theorem test_decode_call : decodeWord 0b0010101010111100 = some (.call 0xABC) := by decide
theorem test_decode_seImm : decodeWord 0b0011001000010000 = some (.seImm 2 0x10) := by decide
theorem test_decode_sneImm : decodeWord 0b0100001000010000 = some (.sneImm 2 0x10) := by decide
theorem test_decode_seReg : decodeWord 0b0101000100100000 = some (.seReg 1 2) := by decide
theorem test_decode_ldImm : decodeWord 0b0110101000101011 = some (.ldImm 0xA 0x2B) := by decide
theorem test_decode_addImm : decodeWord 0b0111001100100000 = some (.addImm 3 0x20) := by decide
theorem test_decode_ldReg : decodeWord 0b1000000100100000 = some (.ldReg 1 2) := by decide
theorem test_decode_or : decodeWord 0b1000000100100001 = some (.or 1 2) := by decide
theorem test_decode_and : decodeWord 0b1000000100100010 = some (.and 1 2) := by decide
theorem test_decode_xor : decodeWord 0b1000000100100011 = some (.xor 1 2) := by decide
theorem test_decode_addReg : decodeWord 0b1000000100100100 = some (.addReg 1 2) := by decide
theorem test_decode_sub : decodeWord 0b1000000100100101 = some (.sub 1 2) := by decide
theorem test_decode_shr : decodeWord 0b1000000100100110 = some (.shr 1 2) := by decide
theorem test_decode_subn : decodeWord 0b1000000100100111 = some (.subn 1 2) := by decide
theorem test_decode_shl : decodeWord 0b1000000100101110 = some (.shl 1 2) := by decide
theorem test_decode_sneReg : decodeWord 0b1001000100100000 = some (.sneReg 1 2) := by decide
theorem test_decode_ldI : decodeWord 0b1010001011110000 = some (.ldI 0x2F0) := by decide
theorem test_decode_jpV0 : decodeWord 0b1011001100000000 = some (.jpV0 0x300) := by decide
theorem test_decode_rnd : decodeWord 0b1100001100001111 = some (.rnd 3 0x0F) := by decide
theorem test_decode_drw : decodeWord 0b1101000000010011 = some (.drw 0 1 3) := by decide
theorem test_decode_skp : decodeWord 0b1110001110011110 = some (.skp 3) := by decide
theorem test_decode_sknp : decodeWord 0b1110001110100001 = some (.sknp 3) := by decide
theorem test_decode_ldVxDt : decodeWord 0b1111001100000111 = some (.ldVxDt 3) := by decide
theorem test_decode_ldVxK : decodeWord 0b1111010100001010 = some (.ldVxK 5) := by decide
theorem test_decode_ldDtVx : decodeWord 0b1111001100010101 = some (.ldDtVx 3) := by decide
theorem test_decode_ldStVx : decodeWord 0b1111001100011000 = some (.ldStVx 3) := by decide
theorem test_decode_addI : decodeWord 0b1111010000011110 = some (.addI 4) := by decide
theorem test_decode_ldF : decodeWord 0b1111001000101001 = some (.ldF 2) := by decide
theorem test_decode_ldB : decodeWord 0b1111010100110011 = some (.ldB 5) := by decide
theorem test_decode_dump : decodeWord 0b1111001001010101 = some (.dump 2) := by decide
theorem test_decode_load : decodeWord 0b1111111101100101 = some (.load 0xF) := by decide

/-- The first byte is the high one (R63), and the bytes after the word are left. -/
theorem test_decode_bytes : decode [0xA2, 0xF0, 0x12] = .ok (.ldI 0x2F0, [0x12]) := by rfl
theorem test_decode_truncated : decode [0xA2] = .error .truncated := by rfl
theorem test_decode_rejects_by_name : decode [0x51, 0x21] = .error (.illegal 0x5121) := by rfl
/-- The host's view of the table: the row `JP` with its operand bits zero. -/
theorem test_decodeTableWord : decodeTableWord 16 0x1000 = some (.jp 0) := by decide
theorem test_encodeBytes : encodeBytes (.drw 0 1 3) = [0xD0, 0x13] := by decide

/-! ### Well-formedness: what each check refuses -/

theorem test_illegal_0000 : wordWellFormed 0x0000 = false := by decide
theorem test_illegal_00FD : wordWellFormed 0x00FD = false := by decide
theorem test_illegal_5121 : wordWellFormed 0x5121 = false := by decide
theorem test_illegal_8128 : wordWellFormed 0x8128 = false := by decide
theorem test_illegal_812F : wordWellFormed 0x812F = false := by decide
theorem test_illegal_9121 : wordWellFormed 0x9121 = false := by decide
theorem test_illegal_E19F : wordWellFormed 0xE19F = false := by decide
theorem test_illegal_F100 : wordWellFormed 0xF100 = false := by decide
theorem test_legal_00E0 : wordWellFormed 0x00E0 = true := by decide
theorem test_image_empty : imageWellFormed [] = false := by decide
theorem test_image_too_long : imageWellFormed (List.replicate 3585 0xAA) = false := by
  unfold imageWellFormed; rw [List.length_replicate]; decide
theorem test_image_longest : imageWellFormed (List.replicate 3584 0xAA) = true := by
  unfold imageWellFormed; rw [List.length_replicate]; decide
theorem test_image_shortest : imageWellFormed [0x12] = true := by decide

/-! ### One cycle: fetch and illegal words -/

/-- V40-1: the reset state runs into the word 0x0000. -/
theorem test_V40_1 : hasNext (step State.reset) (fun t =>
    t.pc == 0x202 && t.out == .completed (.decodeError 0x0000 0x200)) = true := by decide
/-- V40-6. -/
theorem test_V40_6 : runs (regs [(1, 7), (2, 7)]) 0x5121 (fun t =>
    t.pc == 0x202 && t.out == .completed (.decodeError 0x5121 0x200)) = true := by decide
/-- V40-13: the last address that can be fetched. -/
theorem test_V40_13 : runs { State.reset with pc := 0xFFE } 0x6A2B (fun t =>
    t.readV 0xA == 0x2B && t.pc == 0x1000) = true := by decide
/-- V40-14, V40-15, V40-16. -/
theorem test_V40_14 : faultIn (step { State.reset with pc := 0x1000 }) = some (.memoryBounds 0x1000) := by decide
theorem test_V40_15 : faultIn (step { State.reset with pc := 0x0FFF }) = some (.memoryBounds 0x1000) := by decide
theorem test_V40_16 : faultIn (step { State.reset with pc := 0xFFFF }) = some (.memoryBounds 0xFFFF) := by decide
/-- V40-17: an odd `PC`. -/
theorem test_V40_17 : hasNext (step { withBytes State.reset 0x200 [0x00, 0x6A, 0x2B] with pc := 0x201 })
    (fun t => t.readV 0xA == 0x2B && t.pc == 0x203) = true := by decide

/-! ### One cycle: control transfer -/

/-- V41-1. -/
theorem test_V41_1 : runs State.reset 0x1234 (fun t => t.pc == 0x234) = true := by decide
/-- V41-5: the pushed address needs more than 12 bits. -/
theorem test_V41_5 : runs { State.reset with pc := 0xFFE } 0x2ABC (fun t =>
    t.pc == 0xABC && t.sp == 1 && t.stack[0] == 0x1000) = true := by decide
/-- V41-7. -/
theorem test_V41_7 : runs (withStack State.reset 12 0x20A) 0x2300 (fun t =>
    t.pc == 0x202 && t.sp == 12 && t.out == .completed (.stackOverflow 0x2300 0x200)) = true := by decide
/-- V41-8. -/
theorem test_V41_8 : runs { withStack State.reset 1 0x202 with pc := 0x300 } 0x00EE (fun t =>
    t.pc == 0x202 && t.sp == 0) = true := by decide
/-- V41-10. -/
theorem test_V41_10 : runs State.reset 0x00EE (fun t =>
    t.pc == 0x202 && t.out == .completed (.stackUnderflow 0x00EE 0x200)) = true := by decide
/-- V41-12 and V41-13: beyond 12 bits; `V0`, not the register of the nibble. -/
theorem test_V41_12 : runs (regs [(0, 0xFF)]) 0xBFFF (fun t => t.pc == 0x10FE) = true := by decide
theorem test_V41_13 : runs (regs [(3, 0x10)]) 0xB300 (fun t => t.pc == 0x300) = true := by decide
/-- V41-14 and V41-15. -/
theorem test_V41_14 : runs (regs [(2, 0x10)]) 0x3210 (fun t => t.pc == 0x204) = true := by decide
theorem test_V41_15 : runs (regs [(2, 0x11)]) 0x3210 (fun t => t.pc == 0x202) = true := by decide
/-- V41-17 and V41-18. -/
theorem test_V41_17 : runs (regs [(2, 0x10)]) 0x4210 (fun t => t.pc == 0x202) = true := by decide
theorem test_V41_18 : runs (regs [(2, 0x11)]) 0x4210 (fun t => t.pc == 0x204) = true := by decide
/-- V41-19 and V41-20. -/
theorem test_V41_19 : runs (regs [(1, 7), (2, 7)]) 0x5120 (fun t => t.pc == 0x204) = true := by decide
theorem test_V41_20 : runs (regs [(1, 7), (2, 8)]) 0x5120 (fun t => t.pc == 0x202) = true := by decide
/-- V41-22 and V41-23. -/
theorem test_V41_22 : runs (regs [(1, 7), (2, 8)]) 0x9120 (fun t => t.pc == 0x204) = true := by decide
theorem test_V41_23 : runs (regs [(1, 7), (2, 7)]) 0x9120 (fun t => t.pc == 0x202) = true := by decide

/-! ### One cycle: arithmetic and logic -/

/-- V42-1. -/
theorem test_V42_1 : runs State.reset 0x6A2B (fun t => t.readV 0xA == 0x2B) = true := by decide
/-- V42-4: VF is not a flag of 7XNN. -/
theorem test_V42_4 : runs (regs [(3, 0xFF), (15, 1)]) 0x7301 (fun t => t.readV 3 == 0 && t.readV 15 == 1) = true := by
  decide
/-- V42-8. -/
theorem test_V42_8 : runs (regs [(2, 0x5A), (15, 1)]) 0x8F20 (fun t => t.readV 15 == 0x5A) = true := by decide
/-- V42-9 and V42-10. -/
theorem test_V42_9 : runs (regs [(1, 0xF0), (2, 0x0F), (15, 1)]) 0x8121 (fun t =>
    t.readV 1 == 0xFF && t.readV 15 == 0) = true := by decide
theorem test_V42_10 : runs (regs [(2, 0x0F), (15, 0xFF)]) 0x8F21 (fun t => t.readV 15 == 0) = true := by decide
/-- V42-12. -/
theorem test_V42_12 : runs (regs [(1, 0xF3), (2, 0x3F), (15, 7)]) 0x8122 (fun t =>
    t.readV 1 == 0x33 && t.readV 15 == 0) = true := by decide
/-- V42-14. -/
theorem test_V42_14 : runs (regs [(1, 0xFF), (2, 0x0F), (15, 1)]) 0x8123 (fun t =>
    t.readV 1 == 0xF0 && t.readV 15 == 0) = true := by decide
/-- V42-16 and V42-20. -/
theorem test_V42_16 : runs (regs [(1, 0xC8), (2, 0x64)]) 0x8124 (fun t =>
    t.readV 1 == 0x2C && t.readV 15 == 1) = true := by decide
theorem test_V42_20 : runs (regs [(1, 2), (15, 0xFF)]) 0x8F14 (fun t => t.readV 15 == 1) = true := by decide
/-- V42-22 and V42-23. -/
theorem test_V42_22 : runs (regs [(1, 0x10), (2, 0x20)]) 0x8125 (fun t =>
    t.readV 1 == 0xF0 && t.readV 15 == 0) = true := by decide
theorem test_V42_23 : runs (regs [(1, 0x33), (2, 0x33)]) 0x8125 (fun t =>
    t.readV 1 == 0 && t.readV 15 == 1) = true := by decide
/-- V42-27 and V42-31: the source is `Vy`. -/
theorem test_V42_27 : runs (regs [(1, 0xAA), (2, 5)]) 0x8126 (fun t =>
    t.readV 1 == 2 && t.readV 15 == 1) = true := by decide
theorem test_V42_31 : runs (regs [(15, 3)]) 0x81F6 (fun t => t.readV 1 == 1 && t.readV 15 == 1) = true := by decide
/-- V42-32 and V42-33. -/
theorem test_V42_32 : runs (regs [(1, 0x10), (2, 0x20)]) 0x8127 (fun t =>
    t.readV 1 == 0x10 && t.readV 15 == 1) = true := by decide
theorem test_V42_33 : runs (regs [(1, 0x20), (2, 0x10), (15, 1)]) 0x8127 (fun t =>
    t.readV 1 == 0xF0 && t.readV 15 == 0) = true := by decide
/-- V42-35 and V42-36. -/
theorem test_V42_35 : runs (regs [(2, 0x81)]) 0x812E (fun t => t.readV 1 == 2 && t.readV 15 == 1) = true := by decide
theorem test_V42_36 : runs (regs [(1, 0xFF), (2, 0x40), (15, 1)]) 0x812E (fun t =>
    t.readV 1 == 0x80 && t.readV 15 == 0) = true := by decide
/-- V42-39: the host's byte is 0xB7. -/
theorem test_V42_39 : hasNext (cycle (some 0xB7) (State.reset.withFetchWord 16 0xC30F)) (fun t =>
    t.readV 3 == 7 && t.pc == 0x202) = true := by decide

/-! ### One cycle: the address register and memory -/

/-- V43-1. -/
theorem test_V43_1 : runs State.reset 0xA2F0 (fun t => t.i == 0x2F0) = true := by decide
/-- V43-3 and V43-3b: no mask at 12 bits, a wrap at 16. -/
theorem test_V43_3 : runs ((regs [(4, 1)]).writeI 0xFFF) 0xF41E (fun t => t.i == 0x1000 && t.readV 15 == 0) = true := by
  decide
theorem test_V43_3b : runs ((regs [(4, 2)]).writeI 0xFFFF) 0xF41E (fun t => t.i == 1) = true := by decide
/-- V43-4 and V43-6: five times the whole byte. -/
theorem test_V43_4 : runs (regs [(2, 0x0A)]) 0xF229 (fun t => t.i == 0x32) = true := by decide
theorem test_V43_6 : runs (regs [(2, 0xFF)]) 0xF229 (fun t => t.i == 0x4FB) = true := by decide
/-- V43-8 and V43-12. -/
theorem test_V43_8 : runs ((regs [(5, 0x9C)]).writeI 0x300) 0xF533 (fun t =>
    t.mem.readBytes 0x300 3 == [1, 5, 6] && t.i == 0x300) = true := by decide
theorem test_V43_12 : faultIn (step (((regs [(5, 0x7B)]).writeI 0xFFE).withFetchWord 16 0xF533)) =
    some (.memoryBounds 0x1000) := by decide
/-- V43-14 and V43-17. -/
theorem test_V43_14 : runs ((regs [(0, 1), (1, 2), (2, 3), (3, 4)]).writeI 0x400) 0xF255 (fun t =>
    t.mem.readBytes 0x400 4 == [1, 2, 3, 0] && t.i == 0x403) = true := by decide
theorem test_V43_17 : faultIn (step (((regs [(0, 1)]).writeI 0xFFFF).withFetchWord 16 0xF055)) =
    some (.memoryBounds 0xFFFF) := by decide
/-- V43-18 and V43-22. -/
theorem test_V43_18 : runs ((withBytes (regs [(3, 0x77)]) 0x400 [0xA, 0xB, 0xC, 0xD]).writeI 0x400) 0xF265 (fun t =>
    t.readV 0 == 0xA && t.readV 1 == 0xB && t.readV 2 == 0xC && t.readV 3 == 0x77 && t.i == 0x403) = true := by
  decide
theorem test_V43_22 : runs ((withBytes State.reset 0xFFF [0x5C]).writeI 0xFFF) 0xF065 (fun t =>
    t.readV 0 == 0x5C && t.i == 0x1000) = true := by decide

/-! ### One cycle: the display -/

/-- V44-1. -/
theorem test_V44_1 : runs (withPixels (regs [(15, 1)]) [(0, 0), (63, 31), (10, 10)]) 0x00E0 (fun t =>
    lit t [] && t.dirty && t.readV 15 == 1) = true := by decide
/-- V44-3. -/
theorem test_V44_3 : runs ((withBytes (regs [(0, 8), (1, 4)]) 0x300 [0xF0, 0x90, 0xF0]).writeI 0x300) 0xD013 (fun t =>
    lit t [(8, 4), (9, 4), (10, 4), (11, 4), (8, 5), (11, 5), (8, 6), (9, 6), (10, 6), (11, 6)] && t.dirty &&
      t.readV 15 == 0) = true := by decide
/-- V44-8: the start wraps, the body is clipped at both edges. -/
theorem test_V44_8 : runs ((withBytes (regs [(0, 0xFF), (1, 0xFF)]) 0x300 [0xFF, 0xFF]).writeI 0x300) 0xD012 (fun t =>
    lit t [(63, 31)]) = true := by decide
/-- V44-9: a collision. -/
theorem test_V44_9 : runs (withPixels ((withBytes State.reset 0x300 [0xC0]).writeI 0x300) [(1, 0), (2, 0)]) 0xD011
    (fun t => lit t [(0, 0), (2, 0)] && t.readV 15 == 1) = true := by decide
/-- V44-12: VF as a coordinate is read before it is cleared. -/
theorem test_V44_12 : runs ((withBytes (regs [(1, 2), (15, 5)]) 0x300 [0x80]).writeI 0x300) 0xDF11 (fun t =>
    lit t [(5, 2)] && t.readV 15 == 0) = true := by decide
/-- V44-16: a clipped row is still read; V44-17: no row, no fault. -/
theorem test_V44_16 : faultIn (step (((regs [(1, 0x1F)]).writeI 0xFFF).withFetchWord 16 0xD012)) =
    some (.memoryBounds 0x1000) := by decide
theorem test_V44_17 : runs ((regs [(15, 1)]).writeI 0x1000) 0xD000 (fun t => t.dirty && t.readV 15 == 0) = true := by
  decide

/-! ### One cycle: keypad and timers -/

/-- V45-1 and V45-3. -/
theorem test_V45_1 : runs (withKeys (regs [(3, 10)]) [10]) 0xE39E (fun t => t.pc == 0x204) = true := by decide
theorem test_V45_3 : faultIn (step ((withKeys (regs [(3, 16)]) [0]).withFetchWord 16 0xE39E)) =
    some (.keypadIndex 16) := by decide
/-- V45-4 and V45-5. -/
theorem test_V45_4 : runs (regs [(3, 10)]) 0xE3A1 (fun t => t.pc == 0x204) = true := by decide
theorem test_V45_5 : runs (withKeys (regs [(3, 10)]) [10]) 0xE3A1 (fun t => t.pc == 0x202) = true := by decide
/-- V45-7, V45-8, V45-9, V45-10: the four rows of FX0A. -/
theorem test_V45_7 : runs State.reset 0xF50A (fun t => t.pc == 0x200 && t.kw == .idle) = true := by decide
theorem test_V45_8 : runs (withKeys State.reset [7, 9]) 0xF50A (fun t => t.pc == 0x200 && t.kw == .latched 7) = true := by
  decide
theorem test_V45_9 : runs { withKeys State.reset [7] with kw := .latched 7 } 0xF50A (fun t =>
    t.pc == 0x200 && t.kw == .latched 7) = true := by decide
theorem test_V45_10 : runs { withKeys State.reset [9] with kw := .latched 7 } 0xF50A (fun t =>
    t.readV 5 == 7 && t.pc == 0x202 && t.kw == .idle) = true := by decide
/-- V45-17: the delay timer, not the sound timer. -/
theorem test_V45_17 : runs (((regs [(3, 0x99)]).writeDt 0).writeSt 0x11) 0xF307 (fun t => t.readV 3 == 0) = true := by
  decide
/-- V45-14. -/
theorem test_V45_14 : runs (regs [(3, 0x3C)]) 0xF315 (fun t => t.dt == 0x3C && t.st == 0) = true := by decide
/-- V45-16. -/
theorem test_V45_16 : runs (regs [(3, 5)]) 0xF318 (fun t => t.st == 5 && t.dt == 0) = true := by decide

/-! ### The other events -/

/-- V60-1. -/
theorem test_V60_1 : hasNext (event .tick ((State.reset.writeDt 3).writeSt 1)) (fun t =>
    t.dt == 2 && t.st == 0 && !t.audible) = true := by decide
/-- V60-5. -/
theorem test_V60_5 : hasNext (event .redrawQuery { State.reset with dirty := true }) (fun t =>
    t.out == .redraw true && !t.dirty) = true := by decide
/-- V60-6. -/
theorem test_V60_6 : hasNext (event (.keyWrite 7 true) State.reset) (fun t =>
    t == { withKeys State.reset [7] with out := .quiet }) = true := by decide
/-- V60-7. -/
theorem test_V60_7 : hasNext (event (.load []) State.reset) (fun t =>
    t == { State.reset with out := .loaded (.loadError 0) }) = true := by decide
/-- V60-8. -/
theorem test_V60_8 : hasNext (event (.load [0x12]) { regs [(1, 9)] with pc := 0x345 }) (fun t =>
    t.mem.read 0x200 == 0x12 && t.mem.read 0x201 == 0 && t.pc == 0x200 && t.readV 1 == 9) = true := by decide
/-- V60-11. -/
theorem test_V60_11 : hasNext (event (.reset (Vector.replicate 80 0xAA)) { regs [(1, 9)] with pc := 0x345 }) (fun t =>
    t.readV 1 == 0 && t.pc == 0x200 && t.mem.read 0x50 == 0xAA && t.mem.read 0x4F == 0) = true := by decide
/-- The default font table of R41: the glyph of 0 begins with F0, and 0xA0 is above the table. -/
theorem test_font : State.reset.mem.readBytes 0x50 5 = [0xF0, 0x90, 0x90, 0x90, 0xF0] ∧
    State.reset.mem.read 0xA0 = 0 := by decide
/-- A write of what an unlisted address reads as lists nothing, so that equal memories are equal data. -/
theorem test_canonical : Memory.write (Memory.write [] 0x300 7) 0x300 0 = [] := by decide

/-! ### Witnesses: the hypotheses of each statement can be met -/

/-- `EncodeInvertsDecode`. -/
theorem witness_EncodeInvertsDecode : ∃ (op : Word) (i : Instr), decodeWord op = some i :=
  ⟨0xFF65, .load 0xF, by decide⟩

/-- `OpcodeMapSelectsTheDecodedRow`: the last row of the map and its last word. -/
theorem witness_OpcodeMapSelectsTheDecodedRow :
    ∃ (op : Word) (r : OpcodeRow), r ∈ opcodeTable ∧ r.selects op = true :=
  ⟨0xFF65, (Instr.load 0).row, by decide⟩

/-- `StepRunsTheFetchedInstruction`: at the last address that can be fetched, with and without an event. -/
theorem witness_StepRunsTheFetchedInstruction :
    ∃ (s u : State) (i : Instr) (r : Byte), s.pc.toNat = 0xFFE ∧
      decodeWord (bigEndian (s.mem.read s.pc.toNat) (s.mem.read (s.pc.toNat + 1))) = some i ∧ s.host = [] ∧
      u.pc.toNat = 0xFFE ∧
      decodeWord (bigEndian (u.mem.read u.pc.toNat) (u.mem.read (u.pc.toNat + 1))) = some i ∧
      u.host = [.cycle r, .tick] :=
  ⟨{ withBytes State.reset 0xFFE [0x6A, 0x2B] with pc := 0xFFE },
    { withBytes State.reset 0xFFE [0x6A, 0x2B] with pc := 0xFFE, host := [.cycle 0xB7, .tick] },
    .ldImm 0xA 0x2B, 0xB7, by decide⟩

/-- `IllegalWordOnlyAdvancesPc`: at the last address that can be fetched. -/
theorem witness_IllegalWordOnlyAdvancesPc :
    ∃ s : State, s.pc.toNat = 0xFFE ∧ decodeWord (fetchWord s) = none :=
  ⟨{ State.reset with pc := 0xFFE }, by decide⟩

/-- `CycleFaultsExactlyOnItsConditions`: no fault; the fetch; the sprite; the keypad. -/
theorem witness_CycleFaultsExactlyOnItsConditions :
    (∃ s : State, s.faultOf = none) ∧
    (∃ s : State, s.pc.toNat = 0xFFF ∧ s.faultOf = some (.memoryBounds 0x1000)) ∧
    (∃ s : State, s.pc.toNat ≤ 0xFFE ∧ s.faultOf = some (.memoryBounds 0x1001)) ∧
    (∃ s : State, s.faultOf = some (.keypadIndex 16)) :=
  ⟨⟨State.reset, by decide⟩, ⟨{ State.reset with pc := 0xFFF }, by decide⟩,
    ⟨(State.reset.writeI 0x1001).withFetchWord 16 0xD001, by decide⟩,
    ⟨(regs [(3, 16)]).withFetchWord 16 0xE39E, by decide⟩⟩

/-- `PcAfterTheCycle` and `RandomInputMattersOnlyToRandom`: a cycle that completes, on a word outside group C,
one that faults, and one that cannot be fetched. -/
theorem witness_PcAfterTheCycle : ∃ (r : Option Byte) (s t : State),
    fieldG (fetchWord s) ≠ 0xC ∧ cycle r s = .next t :=
  ⟨none, State.reset.withFetchWord 16 0x1FFF, _, by decide, rfl⟩
theorem witness_RandomInputMattersOnlyToRandom : ∃ (r : Option Byte) (s u : State) (f g : Fault),
    fieldG (fetchWord s) ≠ 0xC ∧ cycle r s = .fault f ∧ u.pc.toNat > 0xFFE ∧ cycle r u = .fault g :=
  ⟨some 7, (State.reset.writeI 0x1000).withFetchWord 16 0xF055, { State.reset with pc := 0xFFF },
    .memoryBounds 0x1000, .memoryBounds 0x1000, by decide, rfl, by decide, rfl⟩

/-- `InstructionCompletesUnlessItsFaultHolds`: both cases, on the two sides of the bound. -/
theorem witness_InstructionCompletesUnlessItsFaultHolds :
    ∃ (i : Instr) (s u : State) (f : Fault), instrFault i s = none ∧ instrFault i u = some f :=
  ⟨.ldB 0, State.reset.writeI 0xFFD, State.reset.writeI 0xFFE, .memoryBounds 0x1000, by decide⟩

/-- `InstructionWritesOnlyItsList`: a completed instruction for each clause. -/
theorem witness_InstructionWritesOnlyItsList :
    (∃ (i : Instr) (s t : State), exec i s = .next t ∧ t.dt ≠ s.dt) ∧
    (∃ (i : Instr) (s t : State), exec i s = .next t ∧ t.st ≠ s.st) ∧
    (∃ (i : Instr) (s t : State), exec i s = .next t ∧ t.fb ≠ s.fb) ∧
    (∃ (i : Instr) (s t : State), exec i s = .next t ∧ t.dirty ≠ s.dirty) ∧
    (∃ (i : Instr) (s t : State), exec i s = .next t ∧ t.kw ≠ s.kw) ∧
    (∃ (i : Instr) (s t : State), exec i s = .next t ∧ t.stack ≠ s.stack) ∧
    (∃ (i : Instr) (s t : State), exec i s = .next t ∧ t.sp ≠ s.sp) :=
  ⟨⟨.ldDtVx 0, regs [(0, 1)], _, rfl, by decide⟩, ⟨.ldStVx 0, regs [(0, 1)], _, rfl, by decide⟩,
    ⟨.cls, withPixels State.reset [(0, 0)], _, rfl, by decide⟩, ⟨.cls, State.reset, _, rfl, by decide⟩,
    ⟨.ldVxK 0, withKeys State.reset [15], _, rfl, by decide⟩, ⟨.call 0x300, State.reset, _, rfl, by decide⟩,
    ⟨.ret, withStack State.reset 12 0x202, _, rfl, by decide⟩⟩

/-- `StepKeepsTheInvariant`: a state with a full stack and a listed byte, at a step that writes memory. -/
theorem witness_StepKeepsTheInvariant : ∃ s t : State, s.Inv ∧ s.sp.val = 12 ∧ s.mem ≠ [] ∧ step s = .next t :=
  ⟨(withStack (State.reset.writeI 0xFFF) 12 0x1000).withFetchWord 16 0xF055, _,
    ⟨by decide, by unfold State.StackInv; decide⟩, by decide, by decide, rfl⟩

/-- `KeysBelongToTheHost`: a key write, a reset, and a cycle. -/
theorem witness_KeysBelongToTheHost :
    (∃ s t : State, step s = .next t ∧ t.key ≠ s.key ∧ s.host = [.keyWrite 15 true]) ∧
    (∃ s t : State, step s = .next t ∧ t.key ≠ s.key ∧ s.host = [.reset (Vector.replicate 80 0)]) ∧
    (∃ s t : State, step s = .next t ∧ s.host = []) :=
  ⟨⟨{ State.reset with host := [.keyWrite 15 true] }, _, rfl, by decide, rfl⟩,
    ⟨{ withKeys State.reset [0] with host := [.reset (Vector.replicate 80 0)] }, _, rfl, by decide, rfl⟩,
    ⟨State.reset, _, rfl, rfl⟩⟩

/-- `TimersChangeOnlyByWriteOrTick`: each way a timer can change. -/
theorem witness_TimersChangeOnlyByWriteOrTick :
    (∃ s t : State, step s = .next t ∧ t.dt ≠ s.dt ∧ t.st ≠ s.st ∧ s.host = [.tick]) ∧
    (∃ s t : State, step s = .next t ∧ t.dt ≠ s.dt ∧ s.host = [.reset (Vector.replicate 80 0)]) ∧
    (∃ s t : State, step s = .next t ∧ t.dt ≠ s.dt ∧ s.nextInstr = some (.ldDtVx 15)) ∧
    (∃ s t : State, step s = .next t ∧ t.st ≠ s.st ∧ s.nextInstr = some (.ldStVx 15)) :=
  ⟨⟨{ (State.reset.writeDt 1).writeSt 0xFF with host := [.tick] }, _, rfl, by decide, by decide, rfl⟩,
    ⟨{ State.reset.writeDt 1 with host := [.reset (Vector.replicate 80 0)] }, _, rfl, by decide, rfl⟩,
    ⟨(regs [(15, 9)]).withFetchWord 16 0xFF15, _, rfl, by decide, by decide⟩,
    ⟨(regs [(15, 9)]).withFetchWord 16 0xFF18, _, rfl, by decide, by decide⟩⟩

/-- `NoInstructionReadsTheSoundTimer`. -/
theorem witness_NoInstructionReadsTheSoundTimer :
    ∃ (i : Instr) (s t : State), (∀ x, i ≠ .ldStVx x) ∧ exec i s = .next t :=
  ⟨.ldVxDt 0, State.reset, _, by decide, rfl⟩

/-- `ReturnPopsIntoPc`: a stack of return addresses. -/
theorem witness_ReturnPopsIntoPc : ∃ s : State, 0 < s.sp.val ∧ s.StackInv :=
  ⟨withStack State.reset 12 0x1000, by decide, by unfold State.StackInv; decide⟩
/-- `CallPushesTheNextAddress`, `ReturnUndoesCall`, `ReturnPopsIntoPc`: the ends of the stack. -/
theorem witness_stack_depths :
    (∃ s : State, s.sp.val < 12 ∧ s.sp.val = 11) ∧ (∃ s : State, s.sp.val = 12) ∧
    (∃ s : State, 0 < s.sp.val ∧ s.sp.val = 1) ∧ (∃ s : State, s.sp.val = 0) :=
  ⟨⟨withStack State.reset 11 0x20A, by decide⟩, ⟨withStack State.reset 12 0x20A, by decide⟩,
    ⟨withStack State.reset 1 0x20A, by decide⟩, ⟨State.reset, by decide⟩⟩
/-- `ReturnUndoesCall`: a later state with the stack the call left. -/
theorem witness_ReturnUndoesCall : ∃ s t t' : State, s.sp.val < 12 ∧ exec (.call 0x300) s = .next t ∧
    t'.stack = t.stack ∧ t'.sp = t.sp ∧ t'.pc ≠ t.pc :=
  ⟨withStack State.reset 11 0x20A, _, { withStack State.reset 12 0x20A with
    stack := (Vector.replicate 12 0x20A).set 11 0x200 }, by decide, rfl, by decide, by decide, by decide⟩
/-- `CallsNestTwelveDeep`: twelve calls, and none. -/
theorem witness_CallsNestTwelveDeep : ∃ (s : State) (targets : List (BitVec 12)),
    s.sp.val = 0 ∧ targets.length ≤ 12 ∧ targets.length = 12 :=
  ⟨State.reset, List.replicate 12 0x206, by decide⟩

/-- The statements on results that VF does not overwrite: some destination is not VF. -/
theorem witness_destination_not_vf : ∃ x : Reg, x ≠ vf := ⟨14, by decide⟩

/-- `RandomMasksTheInput`: the host's byte said, and not said. -/
theorem witness_RandomMasksTheInput : (∃ (s : State) (r : Byte), s.rnd = some r) ∧ ∃ s : State, s.rnd = none :=
  ⟨⟨State.reset.beginCycle (some 0xFF), 0xFF, rfl⟩, ⟨State.reset, rfl⟩⟩

/-- `BcdStoresThreeDigits`: the last address where it completes, and the first where it faults. -/
theorem witness_BcdStoresThreeDigits :
    (∃ s : State, s.i.toNat + 2 ≤ 0xFFF ∧ s.i.toNat + 2 = 0xFFF) ∧
    (∃ s : State, s.i.toNat + 2 > 0xFFF ∧ s.i.toNat + 2 = 0x1000) :=
  ⟨⟨State.reset.writeI 0xFFD, by decide⟩, ⟨State.reset.writeI 0xFFE, by decide⟩⟩

/-- `DumpStoresTheRegisters`, `LoadReadsTheRegisters`, `DumpThenLoadRoundTrips`: the same, for all sixteen
registers and for one. -/
theorem witness_transfers :
    (∃ (s : State) (x k : Reg), s.i.toNat + x.val = 0xFFF ∧ x.val = 15 ∧ k.val ≤ x.val) ∧
    (∃ (s : State) (x : Reg), s.i.toNat + x.val = 0xFFF ∧ x.val = 0) ∧
    (∃ (s : State) (x : Reg), s.i.toNat + x.val > 0xFFF ∧ s.i.toNat + x.val = 0x1000) :=
  ⟨⟨State.reset.writeI 0xFF0, 15, 15, by decide⟩, ⟨State.reset.writeI 0xFFF, 0, by decide⟩,
    ⟨State.reset.writeI 0xFF1, 15, by decide⟩⟩
/-- `DumpThenLoadRoundTrips`: a later state with the old `I` and the memory the dump left. -/
theorem witness_DumpThenLoadRoundTrips : ∃ (s t u : State) (x : Reg),
    s.i.toNat + x.val ≤ 0xFFF ∧ exec (.dump x) s = .next t ∧ u.i = s.i ∧ u.mem = t.mem ∧ u.v ≠ t.v :=
  ⟨(regs [(0, 5)]).writeI 0x400, _, (withBytes State.reset 0x400 [5]).writeI 0x400, 0, by decide, rfl, rfl,
    by decide, by decide⟩

/-- `StoreIsSeenByTheNextFetch`: the store goes to the last two bytes of memory. -/
theorem witness_StoreIsSeenByTheNextFetch : ∃ (s : State) (x : Reg), s.nextInstr = some (.dump x) ∧
    1 ≤ x.val ∧ s.i = s.pc + 2 ∧ s.i.toNat + x.val ≤ 0xFFF ∧ s.i.toNat + x.val = 0xFFF :=
  ⟨({ State.reset.writeI 0xFFE with pc := 0xFFC }).withFetchWord 16 0xF155, 1, by decide⟩

/-- `DrawXorsTheClippedSprite`: no row, the last row that exists, the first that does not. -/
theorem witness_DrawXorsTheClippedSprite :
    (∃ (s : State) (n : BitVec 4), n.toNat = 0 ∧ s.i.toNat = 0xFFFF) ∧
    (∃ (s : State) (n : BitVec 4), 0 < n.toNat ∧ s.i.toNat + n.toNat - 1 ≤ 0xFFF ∧ s.i.toNat + n.toNat - 1 = 0xFFF) ∧
    (∃ (s : State) (n : BitVec 4), 0 < n.toNat ∧ s.i.toNat + n.toNat - 1 > 0xFFF ∧
      s.i.toNat + n.toNat - 1 = 0x1000) :=
  ⟨⟨State.reset.writeI 0xFFFF, 0, by decide⟩, ⟨State.reset.writeI 0xFF1, 15, by decide⟩,
    ⟨State.reset.writeI 0xFF2, 15, by decide⟩⟩

/-- `DrawTwiceRestoresThePixels`: a draw that leaves its coordinates, a pixel left of the start column and
above the start row, and a later state that is not the one the draw left. -/
theorem witness_DrawTwiceRestoresThePixels :
    ∃ (s t t' : State) (x y : Reg) (n : BitVec 4) (px : Fin 64) (py : Fin 32),
      exec (.drw x y n) s = .next t ∧ px.val < (s.readV x).toNat % 64 ∧ py.val < (s.readV y).toNat % 32 ∧
      t'.fb = t.fb ∧ t'.i = s.i ∧ t'.readV x = s.readV x ∧ t'.readV y = s.readV y ∧
      (∀ r < n.toNat, t'.mem.read (s.i.toNat + r) = s.mem.read (s.i.toNat + r)) ∧ t'.dt ≠ t.dt ∧ 0 < n.toNat :=
  ⟨(regs [(0, 62), (1, 31)]).writeI 0x050, _, ((withPixels (regs [(0, 62), (1, 31)]) [(62, 31), (63, 31)]).writeI 0x050).writeDt 9,
    0, 1, 1, 61, 30, rfl, by decide, by decide, by decide, by decide, by decide, by decide, by decide, by decide, by decide⟩

/-- `SkipsAdvancePcOnTheirCondition`: a malformed word, at the last address that can be fetched. -/
theorem witness_SkipsAdvancePcOnTheirCondition : ∃ (s u : State) (x y : Reg) (n : BitVec 4), n ≠ 0 ∧
    s.pc.toNat ≤ 0xFFE ∧ fetchWord s = packXYN 0x5 x y n ∧ u.pc.toNat = 0xFFE ∧ fetchWord u = packXYN 0x9 x y n :=
  ⟨State.reset.withFetchWord 16 0x5121, ({ State.reset with pc := 0xFFE }).withFetchWord 16 0x9121, 1, 2, 1,
    by decide⟩

/-- `DirtyTellsOfAClearOrADraw`: a list with a clear in it, and one without. -/
theorem witness_DirtyTellsOfAClearOrADraw :
    (∃ (is : List Instr) (s t : State), execAll is s = .next t ∧ s.dirty = false ∧ t.dirty = true) ∧
    (∃ (is : List Instr) (s t : State), execAll is s = .next t ∧ s.dirty = false ∧ t.dirty = false) :=
  ⟨⟨[.ldImm 0 1, .cls, .ldImm 0 2], State.reset, _, rfl, rfl, rfl⟩, ⟨[.ldImm 0 1], State.reset, _, rfl, rfl, rfl⟩⟩

/-- `KeySkipsTestTheLevel`: the last key, and the first index that is no key. -/
theorem witness_KeySkipsTestTheLevel :
    (∃ (s : State) (x : Reg), (s.readV x).toNat ≤ 15 ∧ (s.readV x).toNat = 15) ∧
    (∃ (s : State) (x : Reg), (s.readV x).toNat > 15 ∧ (s.readV x).toNat = 16) :=
  ⟨⟨regs [(3, 15)], 3, by decide⟩, ⟨regs [(3, 16)], 3, by decide⟩⟩

/-- `WaitForKeyFollowsItsTable`: the four rows. -/
theorem witness_WaitForKeyFollowsItsTable :
    (∃ s : State, s.kw = .idle ∧ ∀ k : Fin 16, s.key[k] = false) ∧
    (∃ (s : State) (k : Fin 16), s.kw = .idle ∧ s.key[k] = true ∧ (∀ j : Fin 16, j < k → s.key[j] = false) ∧ k = 15) ∧
    (∃ (s : State) (k : Fin 16), s.kw = .latched k ∧ s.key[k] = true ∧ k = 0) ∧
    (∃ (s : State) (k : Fin 16), s.kw = .latched k ∧ s.key[k] = false ∧ k = 15) :=
  ⟨⟨State.reset, by decide⟩, ⟨withKeys State.reset [15], 15, by decide⟩,
    ⟨{ withKeys State.reset [0] with kw := .latched 0 }, 0, by decide⟩,
    ⟨{ withKeys State.reset [0] with kw := .latched 15 }, 15, by decide⟩⟩

/-- `LoadCopiesTheImageOrNothing`: the shortest and the longest image, the empty one and the first that is
too long. -/
theorem witness_LoadCopiesTheImageOrNothing :
    (∃ image : List Byte, 0 < image.length ∧ image.length ≤ 4096 - 0x200 ∧ image.length = 1) ∧
    (∃ image : List Byte, 0 < image.length ∧ image.length ≤ 4096 - 0x200 ∧ image.length = 3584) ∧
    (∃ image : List Byte, image.length = 0) ∧
    (∃ image : List Byte, image.length > 4096 - 0x200 ∧ image.length = 3585) :=
  ⟨⟨[0x12], by decide⟩, ⟨List.replicate 3584 0xAA, by rw [List.length_replicate]; decide⟩, ⟨[], rfl⟩, ⟨List.replicate 3585 0xAA, by rw [List.length_replicate]; decide⟩⟩

/-- `SelfJumpStopsTheProgram`: program P4's kind of end, at the last address that can be fetched. -/
theorem witness_SelfJumpStopsTheProgram : ∃ (s : State) (nnn : BitVec 12), s.host = [] ∧
    nnn.toNat = s.pc.toNat ∧ s.pc.toNat ≤ 0xFFE ∧ decodeWord (fetchWord s) = some (.jp nnn) ∧ s.pc.toNat = 0xFFE :=
  ⟨({ State.reset with pc := 0xFFE }).withFetchWord 16 0x1FFE, 0xFFE, by decide⟩

end Sys2Proof.Tests
end

section
/-! PROOFS. The piece of state that belongs to the host (`10_state.md` R34): what the instructions with
several outcomes can do, said once, and from it that no instruction, cycle or event but `KEYWRITE` and
`RESET` changes `KEY`. -/

namespace Sys2Proof.Machine

/-! ### The instructions with several outcomes -/

/-- 00EE pops into `PC`, or reports an empty stack (R140). -/
theorem execRet_next {s t : State} (h : execRet s = .next t) :
    (∃ hs : 0 < s.sp.val, t = s.pop.writePc (s.top hs)) ∨
      (s.sp.val = 0 ∧ t = s.report (.stackUnderflow (encode .ret) s.fetchedFrom)) := by
  unfold execRet at h
  split at h
  next hs => exact .inl ⟨hs, (Host.Outcome.next.inj h).symm⟩
  next hs => exact .inr ⟨by omega, (Host.Outcome.next.inj h).symm⟩

/-- 2NNN pushes and jumps, or reports a full stack (R142). -/
theorem execCall_next {nnn : BitVec 12} {s t : State} (h : execCall nnn s = .next t) :
    (∃ hs : s.sp.val < 12, t = (s.push s.pc hs).writePc (zextNNN nnn)) ∨
      (s.sp.val = 12 ∧ t = s.report (.stackOverflow (encode (.call nnn)) s.fetchedFrom)) := by
  unfold execCall at h
  split at h
  next hs => exact .inl ⟨hs, (Host.Outcome.next.inj h).symm⟩
  next hs => exact .inr ⟨by omega, (Host.Outcome.next.inj h).symm⟩

/-- EX9E skips on a held key, where the keypad has it (R230). -/
theorem execSkp_next {x : Reg} {s t : State} (h : execSkp x s = .next t) :
    ∃ hx : (s.readV x).toNat < 16, t = s.skipIf s.key[(s.readV x).toNat] := by
  unfold execSkp at h
  exact withKey_next.mp h

/-- EXA1 skips on a key that is up, where the keypad has it (R231). -/
theorem execSknp_next {x : Reg} {s t : State} (h : execSknp x s = .next t) :
    ∃ hx : (s.readV x).toNat < 16, t = s.skipIf (!s.key[(s.readV x).toNat]) := by
  unfold execSknp at h
  exact withKey_next.mp h

/-- The four rows of the state table of FX0A (R232). -/
theorem execLdVxK_next {x : Reg} {s t : State} (h : execLdVxK x s = .next t) :
    (s.kw = .idle ∧ leastPressed s.key = none ∧ t = s.again) ∨
      (∃ k, s.kw = .idle ∧ leastPressed s.key = some k ∧ t = s.again.writeKw (.latched k)) ∨
      (∃ k, s.kw = .latched k ∧ s.key[k] = true ∧ t = s.again) ∨
      (∃ k, s.kw = .latched k ∧ s.key[k] = false ∧
        t = (s.writeV x (BitVec.ofNat 8 k.val)).writeKw .idle) := by
  unfold execLdVxK at h
  split at h
  next hk =>
    split at h
    next k hp => exact .inr (.inl ⟨k, hk, hp, (Host.Outcome.next.inj h).symm⟩)
    next hp => exact .inl ⟨hk, hp, (Host.Outcome.next.inj h).symm⟩
  next k hk =>
    split at h
    next hd => exact .inr (.inr (.inl ⟨k, hk, hd, (Host.Outcome.next.inj h).symm⟩))
    next hd =>
      exact .inr (.inr (.inr ⟨k, hk, Bool.eq_false_of_not_eq_true hd, (Host.Outcome.next.inj h).symm⟩))

/-! ### `KEY` -/

/-- No instruction writes `KEY` (R34). -/
theorem exec_next_key {i : Instr} {s t : State} (h : exec i s = .next t) : t.key = s.key := by
  cases i with
  | ret => obtain ⟨_, rfl⟩ | ⟨-, rfl⟩ := execRet_next h <;> rfl
  | call nnn => obtain ⟨_, rfl⟩ | ⟨-, rfl⟩ := execCall_next h <;> rfl
  | ldVxK x =>
    obtain ⟨-, -, rfl⟩ | ⟨_, -, -, rfl⟩ | ⟨_, -, -, rfl⟩ | ⟨_, -, -, rfl⟩ := execLdVxK_next h <;> rfl
  | drw | ldB | dump | load =>
    obtain ⟨-, rfl⟩ := checkRange_next.mp h
    rfl
  | skp x =>
    obtain ⟨_, rfl⟩ := execSkp_next h
    exact State.skipIf_key ..
  | sknp x =>
    obtain ⟨_, rfl⟩ := execSknp_next h
    exact State.skipIf_key ..
  | seImm | sneImm | seReg | sneReg =>
    obtain rfl := Host.Outcome.next.inj h
    exact State.skipIf_key ..
  | _ =>
    obtain rfl := Host.Outcome.next.inj h
    rfl

/-- Within one cycle `KEY` is constant, an illegal word included (R34, R123). -/
theorem cycle_next_key {r : Option Byte} {s t : State} (h : cycle r s = .next t) : t.key = s.key := by
  obtain ⟨-, ⟨i, -, hi⟩ | ⟨-, rfl⟩⟩ := cycle_next h
  · exact (exec_next_key hi).trans (State.beginCycle_key s r)
  · rfl

@[simp] theorem State.loadEvent_key (s : State) (bytes : List Byte) : (s.loadEvent bytes).key = s.key := by
  unfold State.loadEvent
  split <;> rfl

theorem State.getElem_keyWriteEvent_key (s : State) (k : Fin 16) (b : Bool) (j : Fin 16) :
    (s.keyWriteEvent k b).key[j] = if j = k then b else s.key[j] := by
  simp [State.keyWriteEvent, Vector.getElem_set, Fin.ext_iff, eq_comm]

theorem State.getElem_resetEvent_key (s : State) (font : Vector Byte 80) (j : Fin 16) :
    (s.resetEvent font).key[j] = false :=
  Vector.getElem_replicate j.isLt

/-- An event leaves `KEY`, unless it is `KEYWRITE` or `RESET` (R34, R265, R300). -/
theorem event_next_key {e : HostEvent} {s t : State} (h : event e s = .next t) :
    t.key = s.key ∨ (∃ k b, e = .keyWrite k b ∧ t = s.keyWriteEvent k b) ∨
      (∃ font, e = .reset font ∧ t = s.resetEvent font) := by
  cases e with
  | cycle r => exact .inl (cycle_next_key h)
  | keyWrite k b => exact .inr (.inl ⟨k, b, rfl, (Host.Outcome.next.inj h).symm⟩)
  | reset font => exact .inr (.inr ⟨font, rfl, (Host.Outcome.next.inj h).symm⟩)
  | load bytes =>
    obtain rfl := Host.Outcome.next.inj h
    exact .inl (State.loadEvent_key s bytes)
  | tick | redrawQuery | readFb | readAudible =>
    obtain rfl := Host.Outcome.next.inj h
    exact .inl rfl

/-- Settles O17: no arm of `exec` writes `KEY`, and a step is a cycle or one event of the host. -/
theorem keysBelongToTheHost : Obligations.KeysBelongToTheHost := by
  unfold Obligations.KeysBelongToTheHost
  refine ⟨fun _ _ _ => exec_next_key, fun s t h => ?_⟩
  cases hh : s.host with
  | nil =>
    rw [step_empty hh] at h
    exact .inl (cycle_next_key h)
  | cons e rest =>
    rw [step_event hh] at h
    obtain hkey | ⟨k, b, rfl, rfl⟩ | ⟨font, rfl, rfl⟩ := event_next_key h
    · exact .inl hkey
    · exact .inr (.inl ⟨k, b, rest, rfl, State.getElem_keyWriteEvent_key _ k b⟩)
    · exact .inr (.inr ⟨font, rest, rfl, State.getElem_resetEvent_key _ font⟩)

end Sys2Proof.Machine
end

section
/-! PROOFS. The opcode map against the decoder (`30_encoding.md` R94): a decoded instruction encodes to the
word it came from, so its row selects that word; a word that a row selects has the fixed fields the decoder
looks at, so it decodes; and no two rows select one word, so the two rows are the same. -/

namespace Sys2Proof

/-! ### A packed word is given by its fields -/

theorem packNNN_eq_iff {g : BitVec 4} {nnn : BitVec 12} {op : Word} :
    packNNN g nnn = op ↔ fieldG op = g ∧ fieldNNN op = nnn := by
  constructor
  · rintro rfl
    simp
  · rintro ⟨rfl, rfl⟩
    exact packNNN_fields op

theorem packXNN_eq_iff {g : BitVec 4} {x : Reg} {nn : Byte} {op : Word} :
    packXNN g x nn = op ↔ fieldG op = g ∧ fieldX op = x ∧ fieldNN op = nn := by
  constructor
  · rintro rfl
    simp
  · rintro ⟨rfl, rfl, rfl⟩
    exact packXNN_fields op

theorem packXYN_eq_iff {g : BitVec 4} {x y : Reg} {n : BitVec 4} {op : Word} :
    packXYN g x y n = op ↔ fieldG op = g ∧ fieldX op = x ∧ fieldY op = y ∧ fieldN op = n := by
  constructor
  · rintro rfl
    simp
  · rintro ⟨rfl, rfl, rfl, rfl⟩
    exact packXYN_fields op

/-! ### A decoded instruction encodes to its word -/

theorem encode_of_decodeGroup0 {op : Word} {i : Instr} (h : decodeGroup0 op = some i) : encode i = op := by
  unfold decodeGroup0 at h
  split_ifs at h with hcls hret
  · cases h
    exact hcls.symm
  · cases h
    exact hret.symm

theorem encode_of_decodeGroup8 {op : Word} {i : Instr} (hG : fieldG op = 0x8) (h : decodeGroup8 op = some i) :
    encode i = op := by
  unfold decodeGroup8 at h
  split at h
  case h_10 => cases h
  all_goals
    cases h
    simp [encode, packXYN_eq_iff, *]

theorem encode_of_decodeGroupE {op : Word} {i : Instr} (hG : fieldG op = 0xE) (h : decodeGroupE op = some i) :
    encode i = op := by
  unfold decodeGroupE at h
  split at h
  case h_3 => cases h
  all_goals
    cases h
    simp [encode, packXNN_eq_iff, *]

theorem encode_of_decodeGroupF {op : Word} {i : Instr} (hG : fieldG op = 0xF) (h : decodeGroupF op = some i) :
    encode i = op := by
  unfold decodeGroupF at h
  split at h
  case h_10 => cases h
  all_goals
    cases h
    simp [encode, packXNN_eq_iff, *]

/-- The decoder ignores no bit of a word it accepts (R92, R98). -/
theorem encode_of_decodeWord {op : Word} {i : Instr} (h : decodeWord op = some i) : encode i = op := by
  unfold decodeWord at h
  split at h
  case h_1 => exact encode_of_decodeGroup0 h
  case h_9 hG => exact encode_of_decodeGroup8 hG h
  case h_15 hG => exact encode_of_decodeGroupE hG h
  case h_16 =>
    simp only [imp_false] at *
    exact encode_of_decodeGroupF (by bv_omega) h
  case h_6 | h_10 =>
    split_ifs at h with hN
    cases h
    simp [encode, packXYN_eq_iff, *]
  all_goals
    cases h
    simp [encode, packNNN_eq_iff, packXNN_eq_iff, packXYN_eq_iff, *]

/-- The family `RowSelects`, for every instruction at once. -/
theorem row_selects_encode : ∀ i : Instr, i.row.selects (encode i) = true
  | .cls => Laws.RowSelects.cls
  | .ret => Laws.RowSelects.ret
  | .jp nnn => Laws.RowSelects.jp nnn
  | .call nnn => Laws.RowSelects.call nnn
  | .seImm x nn => Laws.RowSelects.seImm x nn
  | .sneImm x nn => Laws.RowSelects.sneImm x nn
  | .seReg x y => Laws.RowSelects.seReg x y
  | .ldImm x nn => Laws.RowSelects.ldImm x nn
  | .addImm x nn => Laws.RowSelects.addImm x nn
  | .ldReg x y => Laws.RowSelects.ldReg x y
  | .or x y => Laws.RowSelects.or x y
  | .and x y => Laws.RowSelects.and x y
  | .xor x y => Laws.RowSelects.xor x y
  | .addReg x y => Laws.RowSelects.addReg x y
  | .sub x y => Laws.RowSelects.sub x y
  | .shr x y => Laws.RowSelects.shr x y
  | .subn x y => Laws.RowSelects.subn x y
  | .shl x y => Laws.RowSelects.shl x y
  | .sneReg x y => Laws.RowSelects.sneReg x y
  | .ldI nnn => Laws.RowSelects.ldI nnn
  | .jpV0 nnn => Laws.RowSelects.jpV0 nnn
  | .rnd x nn => Laws.RowSelects.rnd x nn
  | .drw x y n => Laws.RowSelects.drw x y n
  | .skp x => Laws.RowSelects.skp x
  | .sknp x => Laws.RowSelects.sknp x
  | .ldVxDt x => Laws.RowSelects.ldVxDt x
  | .ldVxK x => Laws.RowSelects.ldVxK x
  | .ldDtVx x => Laws.RowSelects.ldDtVx x
  | .ldStVx x => Laws.RowSelects.ldStVx x
  | .addI x => Laws.RowSelects.addI x
  | .ldF x => Laws.RowSelects.ldF x
  | .ldB x => Laws.RowSelects.ldB x
  | .dump x => Laws.RowSelects.dump x
  | .load x => Laws.RowSelects.load x

/-! ### A selected word decodes -/

theorem OpcodeRow.selects_iff {r : OpcodeRow} {op : Word} : r.selects op = true ↔ op &&& r.mask = r.sel :=
  beq_iff_eq

/-- A field that the mask covers is the field of the match. -/
theorem OpcodeRow.extractLsb'_eq_of_selects {r : OpcodeRow} {op : Word} (h : r.selects op = true) {lo w : Nat}
    (hm : r.mask.extractLsb' lo w = BitVec.allOnes w) : op.extractLsb' lo w = r.sel.extractLsb' lo w := by
  rw [← OpcodeRow.selects_iff.mp h, BitVec.extractLsb'_and, hm, BitVec.and_allOnes]

section
variable {m l op : Word} (h : (⟨m, l⟩ : OpcodeRow).selects op = true)
include h

theorem fieldG_eq_of_selects (hm : fieldG m = 0xF) : fieldG op = fieldG l :=
  OpcodeRow.extractLsb'_eq_of_selects h hm

theorem fieldN_eq_of_selects (hm : fieldN m = 0xF) : fieldN op = fieldN l :=
  OpcodeRow.extractLsb'_eq_of_selects h hm

theorem fieldNN_eq_of_selects (hm : fieldNN m = 0xFF) : fieldNN op = fieldNN l :=
  OpcodeRow.extractLsb'_eq_of_selects h hm

theorem word_eq_of_selects (hm : m = BitVec.allOnes 16) : op = l := by
  have hop : op &&& m = l := OpcodeRow.selects_iff.mp h
  rw [← hop, hm, BitVec.and_allOnes]

end

/-- The decoder accepts every word that the row of some instruction selects: the row fixes the primary
opcode, and where the group has a secondary opcode it fixes that too. -/
theorem isSome_decodeWord_of_selects {i : Instr} {op : Word} (h : i.row.selects op = true) :
    (decodeWord op).isSome = true := by
  cases i with
  | cls | ret =>
    rw [word_eq_of_selects h rfl]
    rfl
  | seReg | sneReg =>
    rw [decodeWord, fieldG_eq_of_selects h rfl, fieldN_eq_of_selects h rfl]
    rfl
  | ldReg | or | and | xor | addReg | sub | shr | subn | shl =>
    rw [decodeWord, fieldG_eq_of_selects h rfl, decodeGroup8, fieldN_eq_of_selects h rfl]
    rfl
  | skp | sknp =>
    rw [decodeWord, fieldG_eq_of_selects h rfl, decodeGroupE, fieldNN_eq_of_selects h rfl]
    rfl
  | ldVxDt | ldVxK | ldDtVx | ldStVx | addI | ldF | ldB | dump | load =>
    rw [decodeWord, fieldG_eq_of_selects h rfl, decodeGroupF, fieldNN_eq_of_selects h rfl]
    rfl
  | jp | call | seImm | sneImm | ldImm | addImm | ldI | jpV0 | rnd | drw =>
    rw [decodeWord, fieldG_eq_of_selects h rfl]
    rfl

/-! ### The rows of the map -/

theorem exists_row_eq_of_mem {r : OpcodeRow} (h : r ∈ opcodeTable) : ∃ i : Instr, i.row = r := by
  simp only [opcodeTable, List.mem_append, List.mem_map] at h
  obtain ((⟨i, -, hi⟩ | ⟨i, -, hi⟩) | ⟨i, -, hi⟩) | ⟨i, -, hi⟩ := h <;> exact ⟨i, hi⟩

theorem row_mem_opcodeTable (i : Instr) : i.row ∈ opcodeTable := by
  cases i <;> simp [opcodeTable, Instr.row]

/-- Two different rows fix some common bit to different values (R94: no two rows overlap). -/
theorem row_eq_of_agree_on_common_mask : ∀ r ∈ opcodeTable, ∀ q ∈ opcodeTable,
    r.sel &&& q.mask = q.sel &&& r.mask → r = q := by
  decide

theorem row_eq_of_selects {r q : OpcodeRow} {op : Word} (hr : r ∈ opcodeTable) (hq : q ∈ opcodeTable)
    (hrop : r.selects op = true) (hqop : q.selects op = true) : r = q := by
  refine row_eq_of_agree_on_common_mask r hr q hq ?_
  calc r.sel &&& q.mask
      = op &&& r.mask &&& q.mask := by rw [OpcodeRow.selects_iff.mp hrop]
    _ = op &&& q.mask &&& r.mask := by ac_rfl
    _ = q.sel &&& r.mask := by rw [OpcodeRow.selects_iff.mp hqop]

theorem row_selects_of_decodeWord {op : Word} {i : Instr} (h : decodeWord op = some i) :
    i.row.selects op = true :=
  encode_of_decodeWord h ▸ row_selects_encode i

namespace Machine

/-- Settles O4: a selected word decodes, its instruction's row selects it as well, and two rows that select
one word are the same row. -/
theorem opcodeMapSelectsTheDecodedRow : Obligations.OpcodeMapSelectsTheDecodedRow := by
  unfold Obligations.OpcodeMapSelectsTheDecodedRow
  refine ⟨rfl, fun op r hr => ⟨fun hop => ?_, ?_⟩, fun _ _ _ hr hq => row_eq_of_selects hr hq⟩
  · obtain ⟨j, rfl⟩ := exists_row_eq_of_mem hr
    obtain ⟨i, hi⟩ := Option.isSome_iff_exists.mp (isSome_decodeWord_of_selects hop)
    exact ⟨i, hi, row_eq_of_selects (row_mem_opcodeTable i) hr (row_selects_of_decodeWord hi) hop⟩
  · rintro ⟨i, hi, rfl⟩
    exact row_selects_of_decodeWord hi

end Machine
end Sys2Proof
end

section
/-! PROOFS. The outcomes of a cycle (`40_cycle.md` R123, R124, R127): an illegal word only advances `PC`; a
cycle completes with the diagnostic of R250 or faults; and outside CXNN the random input passes through an
instruction untouched. -/

namespace Sys2Proof.Machine

/-! ### The address of the instruction -/

/-- `A` is the address the cycle fetched from: the advance of R121 undone. -/
@[simp] theorem State.beginCycle_fetchedFrom (s : State) (r : Option Byte) :
    (s.beginCycle r).fetchedFrom = s.pc :=
  BitVec.add_sub_cancel s.pc 2

/-! ### An illegal word -/

/-- A cycle on an illegal word reports it, on the advanced state (R123). -/
theorem cycle_illegal (r : Option Byte) (s : State) (hp : s.pc.toNat ≤ 0xFFE)
    (hd : decodeWord (fetchWord s) = none) :
    cycle r s = .next ((s.beginCycle r).report (.decodeError (fetchWord s) s.pc)) := by
  rw [cycle_fetch r s hp, execWord_none _ hd, State.beginCycle_fetchedFrom]

/-- Starting a cycle and reporting write `PC` and the model's fields `out` and `rnd` only (R121, R256). -/
theorem frame_report_beginCycle (r : Option Byte) (s : State) (d : Diagnostic) :
    Frame (fun p => p = .pc ∨ p = .out ∨ p = .rnd) s ((s.beginCycle r).report d) := by
  intro p hp
  cases p with
  | pc | out | rnd => simp at hp
  | _ => rfl

/-- Settles O7: the cycle is the report on the advanced state, which has that frame. -/
theorem illegalWordOnlyAdvancesPc : Obligations.IllegalWordOnlyAdvancesPc := by
  unfold Obligations.IllegalWordOnlyAdvancesPc
  intro r s hp hd
  exact ⟨_, cycle_illegal r s hp hd, rfl, rfl, frame_report_beginCycle r s _⟩

/-! ### No instruction is refused -/

theorem execRet_not_refused {s : State} {ρ : Refusal} : execRet s ≠ .refused ρ := by
  unfold execRet
  split <;> nofun

theorem execCall_not_refused {nnn : BitVec 12} {s : State} {ρ : Refusal} : execCall nnn s ≠ .refused ρ := by
  unfold execCall
  split <;> nofun

theorem execLdVxK_not_refused {x : Reg} {s : State} {ρ : Refusal} : execLdVxK x s ≠ .refused ρ := by
  unfold execLdVxK
  split <;> split <;> nofun

/-- Every instruction of the table has a meaning (R122). -/
theorem exec_not_refused {i : Instr} {s : State} {ρ : Refusal} : exec i s ≠ .refused ρ := by
  intro h
  cases i with
  | ret => exact execRet_not_refused h
  | call nnn => exact execCall_not_refused h
  | ldVxK x => exact execLdVxK_not_refused h
  | drw | ldB | dump | load => exact checkRange_not_refused h
  | skp | sknp =>
    simp only [exec, execSkp, execSknp] at h
    exact withKey_not_refused h
  | _ => cases h

theorem cycle_not_refused {r : Option Byte} {s : State} {ρ : Refusal} : cycle r s ≠ .refused ρ := by
  by_cases hp : s.pc.toNat ≤ 0xFFE
  · cases hd : decodeWord (fetchWord s) with
    | some i =>
      rw [cycle_fetch r s hp, execWord_some _ hd]
      exact exec_not_refused
    | none =>
      rw [cycle_illegal r s hp hd]
      nofun
  · rw [cycle_fetch_fault r s (by omega)]
    nofun

/-! ### The diagnostic of a cycle -/

/-- Only a call and a return report (R250): any other instruction leaves the output as it is. -/
theorem exec_next_out {i : Instr} {s t : State} (h : exec i s = .next t) (hret : i ≠ .ret)
    (hcall : ∀ nnn, i ≠ .call nnn) : t.out = s.out := by
  cases i with
  | ret => exact absurd rfl hret
  | call nnn => exact absurd rfl (hcall nnn)
  | ldVxK x =>
    obtain ⟨-, -, rfl⟩ | ⟨_, -, -, rfl⟩ | ⟨_, -, -, rfl⟩ | ⟨_, -, -, rfl⟩ := execLdVxK_next h <;> rfl
  | drw | ldB | dump | load =>
    obtain ⟨-, rfl⟩ := checkRange_next.mp h
    rfl
  | skp x =>
    obtain ⟨_, rfl⟩ := execSkp_next h
    exact State.skipIf_out ..
  | sknp x =>
    obtain ⟨_, rfl⟩ := execSknp_next h
    exact State.skipIf_out ..
  | seImm | sneImm | seReg | sneReg =>
    obtain rfl := Host.Outcome.next.inj h
    exact State.skipIf_out ..
  | _ =>
    obtain rfl := Host.Outcome.next.inj h
    rfl

/-- `diagnosticOf` where the word is neither illegal nor a call or a return. -/
theorem State.diagnosticOf_eq_none {s : State} {i : Instr} (hd : decodeWord (fetchWord s) = some i)
    (hret : i ≠ .ret) (hcall : ∀ nnn, i ≠ .call nnn) : s.diagnosticOf = .none := by
  unfold State.diagnosticOf
  rw [hd]
  split
  next h => cases h
  next h => cases h; exact absurd rfl (hcall _)
  next h => cases h; exact absurd rfl hret
  next => rfl

/-- What a legal word reports, if it completes (R140, R142, R250): the word is the one the instruction
encodes to, and the address is the one it was fetched from. -/
theorem exec_beginCycle_out {r : Option Byte} {s t : State} {i : Instr} (hd : decodeWord (fetchWord s) = some i)
    (h : exec i (s.beginCycle r) = .next t) : t.out = .completed s.diagnosticOf := by
  have henc : encode i = fetchWord s := encode_of_decodeWord hd
  cases i with
  | ret =>
    obtain ⟨hsp, rfl⟩ | ⟨hsp, rfl⟩ := execRet_next h <;> rw [State.beginCycle_sp] at hsp
    · simp [State.diagnosticOf, hd, hsp.ne']
    · simp [State.diagnosticOf, hd, hsp, henc]
  | call nnn =>
    obtain ⟨hsp, rfl⟩ | ⟨hsp, rfl⟩ := execCall_next h <;> rw [State.beginCycle_sp] at hsp
    · simp [State.diagnosticOf, hd, hsp.ne]
    · simp [State.diagnosticOf, hd, hsp, henc]
  | _ =>
    rw [State.diagnosticOf_eq_none hd (by simp) (by simp)]
    exact exec_next_out h (by simp) (by simp)

/-- A cycle that completes does so with exactly the diagnostic of R250. -/
theorem cycle_next_out {r : Option Byte} {s t : State} (h : cycle r s = .next t) :
    t.out = .completed s.diagnosticOf := by
  obtain ⟨-, ⟨i, hd, hi⟩ | ⟨hd, rfl⟩⟩ := cycle_next h
  · exact exec_beginCycle_out hd hi
  · simp [State.diagnosticOf, hd]

/-- A cycle never reports `LoadError`, which is the loader's (R250). -/
theorem State.diagnosticOf_ne_loadError (s : State) (len : Nat) : s.diagnosticOf ≠ .loadError len := by
  unfold State.diagnosticOf
  split
  case h_2 | h_3 => split <;> nofun
  all_goals nofun

/-- Settles O9: a cycle is never refused, and there are two faults. -/
theorem cycleHasOneOfTwoOutcomes : Obligations.CycleHasOneOfTwoOutcomes := by
  unfold Obligations.CycleHasOneOfTwoOutcomes
  refine fun r s => ⟨?_, s.diagnosticOf_ne_loadError⟩
  cases h : cycle r s with
  | next t => exact .inl ⟨t, rfl, cycle_next_out h⟩
  | fault f =>
    cases f with
    | memoryBounds a => exact .inr (.inl ⟨a, rfl⟩)
    | keypadIndex v => exact .inr (.inr ⟨v, rfl⟩)
  | refused ρ => exact absurd h cycle_not_refused

/-! ### The random input -/

/-- The result with `g` applied to its next state, if it has one. -/
def Result.mapNext (g : State → State) : Result → Result
  | .next t => .next (g t)
  | .fault f => .fault f
  | .refused ρ => .refused ρ

theorem checkRange_mapNext (g : State → State) (first len : Nat) (n : State) :
    checkRange first len (g n) = (checkRange first len n).mapNext g := by
  unfold checkRange
  split <;> rfl

theorem withKey_mapNext (g : State → State) (value : Byte) (next : Fin 16 → State) :
    withKey value (fun k => g (next k)) = (withKey value next).mapNext g := by
  unfold withKey
  split <;> rfl

/-- The state with another record of the random input (log 1). -/
def State.withRnd (q : Option Byte) (s : State) : State := { s with rnd := q }

@[simp] theorem State.withRnd_kw (q : Option Byte) (s : State) : (s.withRnd q).kw = s.kw := rfl

@[simp] theorem State.withRnd_key (q : Option Byte) (s : State) : (s.withRnd q).key = s.key := rfl

@[simp] theorem State.beginCycle_withRnd (r q : Option Byte) (s : State) :
    (s.beginCycle r).withRnd q = s.beginCycle q := rfl

theorem State.skipIf_withRnd (s : State) (q : Option Byte) (c : Bool) :
    (s.withRnd q).skipIf c = (s.skipIf c).withRnd q := by
  cases c <;> rfl

theorem execRet_withRnd (q : Option Byte) (s : State) :
    execRet (s.withRnd q) = (execRet s).mapNext (.withRnd q) := by
  unfold execRet
  rw [apply_dite (Result.mapNext (.withRnd q))]
  rfl

theorem execCall_withRnd (q : Option Byte) (nnn : BitVec 12) (s : State) :
    execCall nnn (s.withRnd q) = (execCall nnn s).mapNext (.withRnd q) := by
  unfold execCall
  rw [apply_dite (Result.mapNext (.withRnd q))]
  rfl

theorem execLdVxK_withRnd (q : Option Byte) (x : Reg) (s : State) :
    execLdVxK x (s.withRnd q) = (execLdVxK x s).mapNext (.withRnd q) := by
  unfold execLdVxK
  rw [State.withRnd_kw, State.withRnd_key]
  cases s.kw with
  | idle => cases leastPressed s.key <;> rfl
  | latched k =>
    dsimp only
    rw [apply_ite (Result.mapNext (.withRnd q))]
    rfl

/-- Every instruction but CXNN passes the record of the random input through and reads nothing from it. -/
theorem exec_withRnd {i : Instr} (hi : ∀ x nn, i ≠ .rnd x nn) (q : Option Byte) (s : State) :
    exec i (s.withRnd q) = Result.mapNext (.withRnd q) (exec i s) := by
  cases i with
  | rnd x nn => exact absurd rfl (hi x nn)
  | ret => exact execRet_withRnd q s
  | call nnn => exact execCall_withRnd q nnn s
  | ldVxK x => exact execLdVxK_withRnd q x s
  | skp | sknp =>
    simp only [exec, execSkp, execSknp, ← withKey_mapNext, ← State.skipIf_withRnd]
    rfl
  | drw | ldB | dump | load =>
    simp only [exec, execDrw, execLdB, execDump, execLoad, ← checkRange_mapNext]
    rfl
  | seImm | sneImm | seReg | sneReg => exact congrArg Host.Outcome.next (State.skipIf_withRnd s q _)
  | _ => rfl

/-- A word outside group C is not CXNN (R94). -/
theorem ne_rnd_of_fieldG {op : Word} {i : Instr} (hd : decodeWord op = some i) (hG : fieldG op ≠ 0xC)
    (x : Reg) (nn : Byte) : i ≠ .rnd x nn := by
  rintro rfl
  exact hG (packXNN_eq_iff.mp (encode_of_decodeWord hd)).1

/-- Two cycles that differ in the random input alone end alike, but for the record of the input (R127). -/
theorem cycle_withRnd (r q : Option Byte) (s : State) (h : 0xFFE < s.pc.toNat ∨ fieldG (fetchWord s) ≠ 0xC) :
    cycle q s = (cycle r s).mapNext (.withRnd q) := by
  by_cases hp : s.pc.toNat ≤ 0xFFE
  · have hG : fieldG (fetchWord s) ≠ 0xC := h.resolve_left (by omega)
    cases hd : decodeWord (fetchWord s) with
    | some i =>
      rw [cycle_fetch q s hp, cycle_fetch r s hp, execWord_some _ hd, execWord_some _ hd]
      rw [← exec_withRnd (ne_rnd_of_fieldG hd hG), State.beginCycle_withRnd]
    | none =>
      rw [cycle_illegal q s hp hd, cycle_illegal r s hp hd]
      rfl
  · rw [cycle_fetch_fault q s (by omega), cycle_fetch_fault r s (by omega)]
    rfl

/-- Settles O12: the second cycle is the first with the record of its input exchanged. -/
theorem randomInputMattersOnlyToRandom : Obligations.RandomInputMattersOnlyToRandom := by
  unfold Obligations.RandomInputMattersOnlyToRandom
  intro r q s h
  rw [cycle_withRnd r q s h]
  refine ⟨fun t ht => ?_, fun f hf => ?_⟩
  · rw [ht]
    rfl
  · rw [hf]
    rfl

end Sys2Proof.Machine
end

section
/-! PROOFS. Control transfer (`41_flow.md` R140 to R147): jumps, the call and the return at both ends of the
stack, and the skips. What each shared operation leaves unchanged is said once; the frame of a meaning is
composed of the frames of its operations. -/

namespace Sys2Proof.Machine

/-! ### Frames -/

/-- What two updates in a row may write is what the one or the other may. -/
theorem Frame.trans {w₁ w₂ : Part → Prop} {s t u : State} (hst : Frame w₁ s t) (htu : Frame w₂ t u) :
    Frame (fun p => w₁ p ∨ w₂ p) s u := by
  intro p hp
  obtain ⟨h₁, h₂⟩ := not_or.mp hp
  have hst := hst p h₁
  have htu := htu p h₂
  cases p <;> exact Eq.trans htu hst

theorem Frame.mono {w w' : Part → Prop} {s t : State} (h : Frame w s t) (hw : ∀ p, w p → w' p) :
    Frame w' s t :=
  fun p hp => h p fun hwp => hp (hw p hwp)

theorem frame_writePc (s : State) (w : Word) : Frame (fun p => p = .pc) s (s.writePc w) := by
  intro p hp
  cases p with
  | pc => exact absurd rfl hp
  | _ => rfl

theorem frame_report (s : State) (d : Diagnostic) : Frame (fun p => p = .out) s (s.report d) := by
  intro p hp
  cases p with
  | out => exact absurd rfl hp
  | _ => rfl

theorem frame_skipIf (s : State) (c : Bool) : Frame (fun p => p = .pc) s (s.skipIf c) := by
  cases c with
  | true => exact frame_writePc s _
  | false => exact fun p _ => by cases p <;> rfl

theorem frame_pop (s : State) : Frame (fun p => p = .sp) s s.pop := by
  intro p hp
  cases p with
  | sp => exact absurd rfl hp
  | _ => rfl

/-- A push writes the depth and the slot of the old depth (R29). -/
theorem frame_push (s : State) (w : Word) (h : s.sp.val < 12) :
    Frame (fun p => p = .sp ∨ p = .slot ⟨s.sp.val, h⟩) s (s.push w h) := by
  intro p hp
  cases p with
  | sp => exact absurd (.inl rfl) hp
  | slot j =>
    have hj : s.sp.val ≠ j.val := fun hj => hp (.inr (congrArg Part.slot (Fin.ext hj.symm)))
    exact Vector.getElem_set_ne h j.isLt hj
  | _ => rfl

/-! ### Targets -/

@[simp] theorem zextNNN_toNat (nnn : BitVec 12) : (zextNNN nnn).toNat = nnn.toNat :=
  BitVec.toNat_setWidth_of_le (by decide)

@[simp] theorem zext16_toNat (b : Byte) : (zext16 b).toNat = b.toNat :=
  BitVec.toNat_setWidth_of_le (by decide)

/-- The target of BNNN is at most 0x10FE, so the sum modulo 2^16 is the sum (R143). -/
theorem zext16_add_zextNNN_toNat (b : Byte) (nnn : BitVec 12) :
    (zext16 b + zextNNN nnn).toNat = b.toNat + nnn.toNat := by
  rw [BitVec.toNat_add, zext16_toNat, zextNNN_toNat]
  exact Nat.mod_eq_of_lt (by omega)

/-- Settles O20: both jumps are one write of `PC`. -/
theorem jumpsSetPc : Obligations.JumpsSetPc := by
  unfold Obligations.JumpsSetPc
  exact fun s nnn => ⟨⟨_, rfl, zextNNN_toNat nnn, frame_writePc s _⟩,
    ⟨_, rfl, zext16_add_zextNNN_toNat _ nnn, frame_writePc s _⟩⟩

/-! ### The call and the return -/

theorem exec_call_of_lt (nnn : BitVec 12) {s : State} (h : s.sp.val < 12) :
    exec (.call nnn) s = .next ((s.push s.pc h).writePc (zextNNN nnn)) :=
  dif_pos h

theorem exec_call_of_full (nnn : BitVec 12) {s : State} (h : s.sp.val = 12) :
    exec (.call nnn) s = .next (s.report (.stackOverflow (encode (.call nnn)) s.fetchedFrom)) :=
  dif_neg (by omega)

theorem exec_ret_of_pos {s : State} (h : 0 < s.sp.val) : exec .ret s = .next (s.pop.writePc (s.top h)) :=
  dif_pos h

theorem exec_ret_of_empty {s : State} (h : s.sp.val = 0) :
    exec .ret s = .next (s.report (.stackUnderflow (encode .ret) s.fetchedFrom)) :=
  dif_neg (by omega)

/-- Settles O21: a push and a jump, or a report. -/
theorem callPushesTheNextAddress : Obligations.CallPushesTheNextAddress := by
  unfold Obligations.CallPushesTheNextAddress
  refine fun s nnn => ⟨fun h => ?_, fun h => ?_⟩
  · have hframe := (frame_push s s.pc h).trans (frame_writePc _ (zextNNN nnn))
    exact ⟨_, exec_call_of_lt nnn h, zextNNN_toNat nnn, rfl, Vector.getElem_set_self h,
      hframe.mono fun _ => Or.symm⟩
  · exact ⟨_, exec_call_of_full nnn h, rfl, frame_report s _⟩

/-- The word on top of a stack that holds what calls push is such a word (R140). -/
theorem State.StackInv.top_bounds {s : State} (hs : s.StackInv) (h : 0 < s.sp.val) :
    2 ≤ (s.top h).toNat ∧ (s.top h).toNat ≤ 0x1000 :=
  hs ⟨s.sp.val - 1, by omega⟩ (Nat.sub_one_lt_of_lt h)

/-- Settles O22: a pop into `PC`, or a report. -/
theorem returnPopsIntoPc : Obligations.ReturnPopsIntoPc := by
  unfold Obligations.ReturnPopsIntoPc
  refine fun s => ⟨fun h => ?_, fun h => ?_⟩
  · have hframe := (frame_pop s).trans (frame_writePc _ (s.top h))
    exact ⟨_, exec_ret_of_pos h, rfl, rfl, fun hs => hs.top_bounds h, hframe.mono fun _ => Or.symm⟩
  · exact ⟨_, exec_ret_of_empty h, rfl, frame_report s _⟩

/-! ### The skips -/

/-- `PC` after a skip, with its condition as a proposition (R148). -/
theorem State.skipIf_pc_of_iff (s : State) {c : Bool} {P : Prop} [Decidable P] (h : c = true ↔ P) :
    (s.skipIf c).pc = if P then s.pc + 2 else s.pc := by
  rw [State.skipIf_pc, if_congr h rfl rfl]

theorem byte_beq_iff_toNat_eq {a b : Byte} : (a == b) = true ↔ a.toNat = b.toNat := by
  rw [beq_iff_eq, BitVec.toNat_inj]

theorem byte_bne_iff_toNat_ne {a b : Byte} : (a != b) = true ↔ a.toNat ≠ b.toNat := by
  rw [bne_iff_ne, BitVec.toNat_ne_iff_ne]

/-- The last digit of 5XY0 and 9XY0 must be 0 (R146, R147). -/
theorem decodeWord_packXYN_malformed {g : BitVec 4} (hg : g = 0x5 ∨ g = 0x9) (x y : Reg) {n : BitVec 4}
    (hn : n ≠ 0) : decodeWord (packXYN g x y n) = none := by
  unfold decodeWord
  obtain rfl | rfl := hg
  · simpa using hn
  · simpa using hn

/-- Settles O25: each skip is the shared skip with its comparison, and a malformed word is illegal. -/
theorem skipsAdvancePcOnTheirCondition : Obligations.SkipsAdvancePcOnTheirCondition := by
  unfold Obligations.SkipsAdvancePcOnTheirCondition
  refine fun s x y nn => ⟨?_, ?_, ?_, ?_, fun r n hn hp hw => ?_⟩
  · exact ⟨_, rfl, s.skipIf_pc_of_iff byte_beq_iff_toNat_eq, frame_skipIf s _⟩
  · exact ⟨_, rfl, s.skipIf_pc_of_iff byte_bne_iff_toNat_ne, frame_skipIf s _⟩
  · exact ⟨_, rfl, s.skipIf_pc_of_iff byte_beq_iff_toNat_eq, frame_skipIf s _⟩
  · exact ⟨_, rfl, s.skipIf_pc_of_iff byte_bne_iff_toNat_ne, frame_skipIf s _⟩
  · have hd : decodeWord (fetchWord s) = none := by
      obtain hw | hw := hw
      · rw [hw, decodeWord_packXYN_malformed (.inl rfl) x y hn]
      · rw [hw, decodeWord_packXYN_malformed (.inr rfl) x y hn]
    exact ⟨_, cycle_illegal r s hp hd, rfl, rfl⟩

end Sys2Proof.Machine
end

section
/-! PROOFS. Arithmetic and logic (`42_alu.md` R160 to R171): the 8-bit laws over the natural numbers, what
a result and its flag leave in the registers, and the meanings that are one such write. -/

namespace Sys2Proof.Machine

/-! ### The 8-bit laws (R160) -/

theorem add8_toNat (a b : Byte) : (add8 a b).toNat = (a.toNat + b.toNat) % 256 :=
  BitVec.toNat_add a b

theorem sub8_toNat (a b : Byte) : (sub8 a b).toNat = (a.toNat + 256 - b.toNat) % 256 := by
  have hdiff : 256 - b.toNat + a.toNat = a.toNat + 256 - b.toNat := by omega
  exact (BitVec.toNat_sub a b).trans (congrArg (· % 256) hdiff)

theorem shr1_toNat (b : Byte) : (shr1 b).toNat = b.toNat / 2 :=
  (BitVec.toNat_ushiftRight b 1).trans (Nat.shiftRight_eq_div_pow _ 1)

theorem shl1_toNat (b : Byte) : (shl1 b).toNat = 2 * b.toNat % 256 := by
  rw [shl1, BitVec.toNat_shiftLeft, Nat.shiftLeft_eq, Nat.mul_comm]

/-! ### The flags (R38) -/

theorem flagByte_decide_toNat (P : Prop) [Decidable P] : (flagByte (decide P)).toNat = if P then 1 else 0 := by
  rw [flagByte_toNat, if_congr decide_eq_true_iff rfl rfl]

theorem flagByte_carry_toNat (a b : Byte) :
    (flagByte (carry a b)).toNat = if a.toNat + b.toNat > 255 then 1 else 0 :=
  flagByte_decide_toNat _

theorem flagByte_noBorrow_toNat (a b : Byte) :
    (flagByte (noBorrow a b)).toNat = if a.toNat ≥ b.toNat then 1 else 0 :=
  flagByte_decide_toNat _

theorem flagByte_toNat_eq_toNat (c : Bool) : (flagByte c).toNat = c.toNat := by
  cases c <;> rfl

/-- The flag of a bit is the digit of that place. -/
theorem flagByte_getLsbD_toNat (b : Byte) (j : Nat) :
    (flagByte (b.getLsbD j)).toNat = b.toNat / 2 ^ j % 2 := by
  rw [flagByte_toNat_eq_toNat, ← BitVec.testBit_toNat, Nat.toNat_testBit]

theorem flagByte_lostRight_toNat (b : Byte) : (flagByte (lostRight b)).toNat = b.toNat % 2 := by
  rw [lostRight, flagByte_getLsbD_toNat, Nat.pow_zero, Nat.div_one]

/-- The top digit is the whole quotient, because a byte is below 256. -/
theorem flagByte_lostLeft_toNat (b : Byte) : (flagByte (lostLeft b)).toNat = b.toNat / 128 := by
  have hlt : b.toNat / 2 ^ 7 < 2 := Nat.div_lt_of_lt_mul b.isLt
  exact (flagByte_getLsbD_toNat b 7).trans (Nat.mod_eq_of_lt hlt)

/-! ### A result and its flag -/

theorem frame_writeV (s : State) (x : Reg) (b : Byte) : Frame (fun p => p = .v x) s (s.writeV x b) := by
  intro p hp
  cases p with
  | v k =>
    have hk : k ≠ x := fun hk => hp (congrArg Part.v hk)
    exact (s.readV_writeV x k b).trans (if_neg hk)
  | _ => rfl

theorem frame_writeVFlag (s : State) (x : Reg) (b : Byte) (c : Bool) :
    Frame (fun p => p = .v x ∨ p = .v vf) s (s.writeVFlag x b c) :=
  (frame_writeV s x b).trans (frame_writeV _ vf (flagByte c))

/-- VF holds the flag, with `x = 15` too, because the flag is written last (R173). -/
theorem State.readV_writeVFlag_vf (s : State) (x : Reg) (b : Byte) (c : Bool) :
    (s.writeVFlag x b c).readV vf = flagByte c :=
  State.readV_writeV_self _ vf _

theorem State.readV_writeVFlag_of_ne (s : State) {x : Reg} (hx : x ≠ vf) (b : Byte) (c : Bool) :
    (s.writeVFlag x b c).readV x = b := by
  rw [State.readV_writeVFlag, if_neg hx, if_pos rfl]

/-- A meaning that is one write of a result and its flag, with the two bytes as numbers. -/
theorem exec_writeVFlag_toNat {i : Instr} {s : State} {x : Reg} {b : Byte} {c : Bool} {flag result : Nat}
    (h : exec i s = .next (s.writeVFlag x b c)) (hflag : (flagByte c).toNat = flag)
    (hresult : b.toNat = result) :
    ∃ t, exec i s = .next t ∧ (t.readV vf).toNat = flag ∧ (x ≠ vf → (t.readV x).toNat = result) ∧
      Frame (fun p => p = .v x ∨ p = .v vf) s t := by
  refine ⟨_, h, ?_, fun hx => ?_, frame_writeVFlag s x b c⟩
  · rw [State.readV_writeVFlag_vf, hflag]
  · rw [State.readV_writeVFlag_of_ne s hx, hresult]

/-- A meaning that is one write of a result and clears VF, with the result bit by bit. -/
theorem exec_writeVFlag_false_bits {i : Instr} {s : State} {x : Reg} {b : Byte} {bit : Nat → Bool}
    (h : exec i s = .next (s.writeVFlag x b false)) (hbit : ∀ j, b.getLsbD j = bit j) :
    ∃ t, exec i s = .next t ∧ t.readV vf = 0 ∧ (x ≠ vf → ∀ j, (t.readV x).getLsbD j = bit j) ∧
      Frame (fun p => p = .v x ∨ p = .v vf) s t := by
  refine ⟨_, h, s.readV_writeVFlag_vf x b false, fun hx j => ?_, frame_writeVFlag s x b false⟩
  rw [State.readV_writeVFlag_of_ne s hx, hbit]

/-! ### The meanings -/

/-- Settles O26: each of the three is one write of `Vx`. -/
theorem loadsAndImmediateAdd : Obligations.LoadsAndImmediateAdd := by
  unfold Obligations.LoadsAndImmediateAdd
  refine fun s x y nn => ⟨?_, ?_, ?_⟩
  · exact ⟨_, rfl, s.readV_writeV_self x nn, frame_writeV s x _⟩
  · have hsum : ((s.writeV x (add8 (s.readV x) nn)).readV x).toNat = ((s.readV x).toNat + nn.toNat) % 256 := by
      rw [State.readV_writeV_self, add8_toNat]
    exact ⟨_, rfl, hsum, frame_writeV s x _⟩
  · exact ⟨_, rfl, s.readV_writeV_self x _, frame_writeV s x _⟩

/-- Settles O27: each of the three writes its result with the flag 0. -/
theorem logicClearsVf : Obligations.LogicClearsVf := by
  unfold Obligations.LogicClearsVf
  refine fun s x y => ⟨?_, ?_, ?_⟩
  · exact exec_writeVFlag_false_bits rfl fun _ => BitVec.getLsbD_or
  · exact exec_writeVFlag_false_bits rfl fun _ => BitVec.getLsbD_and
  · exact exec_writeVFlag_false_bits rfl fun _ => BitVec.getLsbD_xor

/-- Settles O28: the sum of R160 with its carry. -/
theorem addSetsTheCarry : Obligations.AddSetsTheCarry := by
  unfold Obligations.AddSetsTheCarry
  exact fun s x y => exec_writeVFlag_toNat rfl (flagByte_carry_toNat _ _) (add8_toNat _ _)

/-- Settles O29: one difference, with the operands in the two orders. -/
theorem subtractionsSetNoBorrow : Obligations.SubtractionsSetNoBorrow := by
  unfold Obligations.SubtractionsSetNoBorrow
  refine fun s x y => ⟨?_, ?_⟩
  · exact exec_writeVFlag_toNat rfl (flagByte_noBorrow_toNat _ _) (sub8_toNat _ _)
  · exact exec_writeVFlag_toNat rfl (flagByte_noBorrow_toNat _ _) (sub8_toNat _ _)

/-- Settles O30: the two shifts of `Vy`, each with the bit it loses. -/
theorem shiftsReadVyAndKeepTheLostBit : Obligations.ShiftsReadVyAndKeepTheLostBit := by
  unfold Obligations.ShiftsReadVyAndKeepTheLostBit
  refine fun s x y => ⟨?_, ?_⟩
  · exact exec_writeVFlag_toNat rfl (flagByte_lostRight_toNat _) (shr1_toNat _)
  · exact exec_writeVFlag_toNat rfl (flagByte_lostLeft_toNat _) (shl1_toNat _)

end Sys2Proof.Machine
end

section
/-! PROOFS. The address register and the memory transfers (`43_index_memory.md` R190 to R195): the bounds
check decided by its range, what a store and a load read as, and the frame of each shared operation. -/

namespace Sys2Proof.Machine

/-! ### The bounds check, decided (R66) -/

theorem checkRange_of_le {first len : Nat} (h : first + len ≤ 0x1000) (n : State) :
    checkRange first len n = .next n :=
  checkRange_next.mpr ⟨outOfBounds_eq_none.mpr (.inr h), rfl⟩

theorem checkRange_of_gt {first len : Nat} (hlen : 0 < len) (h : 0x1000 < first + len) (n : State) :
    checkRange first len n = .fault (.memoryBounds (max first 0x1000)) :=
  checkRange_fault.mpr ⟨_, outOfBounds_eq_some.mpr ⟨hlen, h, rfl⟩, rfl⟩

/-! ### Frames -/

theorem frame_writeI (s : State) (w : Word) : Frame (fun p => p = .i) s (s.writeI w) := by
  intro p hp
  cases p with
  | i => exact absurd rfl hp
  | _ => rfl

theorem frame_advanceI (s : State) (n : Nat) : Frame (fun p => p = .i) s (s.advanceI n) :=
  frame_writeI s _

theorem frame_store (s : State) (a : Nat) (bs : List Byte) :
    Frame (fun p => ∃ b, p = .byte b ∧ a ≤ b ∧ b < a + bs.length) s (s.store a bs) := by
  intro p hp
  cases p with
  | byte b =>
    have hb : ¬(a ≤ b ∧ b < a + bs.length) := fun hb => hp ⟨b, rfl, hb⟩
    exact Memory.read_writeBytes_out s.mem a bs b (by omega)
  | _ => rfl

/-- What a register reads as after a load of the first `n` (R195). -/
theorem State.readV_loadFirst (s : State) (a : Nat) {n : Nat} (hn : n ≤ 16) (k : Reg) :
    (s.loadFirst a n).readV k = if k.val < n then s.mem.read (a + k.val) else s.readV k :=
  getElem_loadRegs s.mem a s.v n hn k

theorem frame_loadFirst (s : State) (a : Nat) {n : Nat} (hn : n ≤ 16) :
    Frame (fun p => ∃ k : Reg, p = .v k ∧ k.val < n) s (s.loadFirst a n) := by
  intro p hp
  cases p with
  | v k =>
    have hk : ¬k.val < n := fun hk => hp ⟨k, rfl, hk⟩
    exact (s.readV_loadFirst a hn k).trans (if_neg hk)
  | _ => rfl

/-! ### The address register -/

/-- Five times a byte is at most 0x4FB, so the product modulo 2^16 is the product (R192). -/
theorem five_mul_zext16_toNat (b : Byte) : (5 * zext16 b).toNat = 5 * b.toNat := by
  rw [BitVec.toNat_mul, zext16_toNat]
  exact Nat.mod_eq_of_lt (by simp; omega)

/-- A transfer inside memory does not wrap `I` (R194, R195). -/
theorem State.advanceI_toNat (s : State) {n : Nat} (h : s.i.toNat + n ≤ 0x1000) :
    (s.advanceI n).i.toNat = s.i.toNat + n := by
  rw [State.advanceI_i, BitVec.toNat_add, BitVec.toNat_ofNat]
  omega

/-- Settles O32: each of the three is one write of `I`. -/
theorem addressRegisterInstructions : Obligations.AddressRegisterInstructions := by
  unfold Obligations.AddressRegisterInstructions
  refine fun s x nnn => ⟨?_, ?_, ?_⟩
  · exact ⟨_, rfl, zextNNN_toNat nnn, frame_writeI s _⟩
  · have hsum : (s.i + zext16 (s.readV x)).toNat = (s.i.toNat + (s.readV x).toNat) % 65536 := by
      rw [BitVec.toNat_add, zext16_toNat]
    exact ⟨_, rfl, hsum, frame_writeI s _⟩
  · exact ⟨_, rfl, five_mul_zext16_toNat _, frame_writeI s _⟩

/-! ### The transfers -/

theorem State.read_store (s : State) (a : Nat) (bs : List Byte) {k : Nat} (h : k < bs.length) :
    (s.store a bs).mem.read (a + k) = bs[k] :=
  Memory.read_writeBytes_in s.mem a bs k h

theorem bcdDigits_toNat (b : Byte) :
    (bcdDigits b).map BitVec.toNat = [b.toNat / 100, b.toNat / 10 % 10, b.toNat % 10] := by
  have hb : b.toNat < 256 := b.isLt
  have hhundreds : (BitVec.ofNat 8 (b.toNat / 100)).toNat = b.toNat / 100 := Nat.mod_eq_of_lt (by omega)
  have htens : (BitVec.ofNat 8 (b.toNat / 10 % 10)).toNat = b.toNat / 10 % 10 := Nat.mod_eq_of_lt (by omega)
  have hunits : (BitVec.ofNat 8 (b.toNat % 10)).toNat = b.toNat % 10 := Nat.mod_eq_of_lt (by omega)
  simp only [bcdDigits, List.map_cons, List.map_nil, hhundreds, htens, hunits]

/-- The digit stored at `a + k`, as a number (R193). -/
theorem State.read_store_bcdDigits_toNat (s : State) (a : Nat) (b : Byte) {k : Nat} (hk : k < 3) :
    ((s.store a (bcdDigits b)).mem.read (a + k)).toNat =
      [b.toNat / 100, b.toNat / 10 % 10, b.toNat % 10][k] := by
  rw [s.read_store a (bcdDigits b) hk]
  exact (List.getElem_map BitVec.toNat (h := hk)).symm.trans (List.getElem_of_eq (bcdDigits_toNat b) hk)

/-- The register stored at `a + k` (R194). -/
theorem State.read_store_firstRegs (s : State) (a : Nat) {n : Nat} (hn : n ≤ 16) (k : Reg) (hk : k.val < n) :
    (s.store a (s.firstRegs n)).mem.read (a + k.val) = s.readV k := by
  have hlen : k.val < (s.firstRegs n).length := by rwa [s.firstRegs_length n hn]
  rw [s.read_store a _ hlen, s.getElem_firstRegs n k.val hlen k.isLt]

/-- Settles O33: one store of the three digits, under the bounds check. -/
theorem bcdStoresThreeDigits : Obligations.BcdStoresThreeDigits := by
  unfold Obligations.BcdStoresThreeDigits
  refine fun s x => ⟨fun h => ?_, fun h => ?_⟩
  · have hdigit {k : Nat} (hk : k < 3) := s.read_store_bcdDigits_toNat s.i.toNat (s.readV x) hk
    exact ⟨_, checkRange_of_le (by omega) _, hdigit (k := 0) (by decide), hdigit (k := 1) (by decide),
      hdigit (k := 2) (by decide), frame_store s s.i.toNat (bcdDigits (s.readV x))⟩
  · exact checkRange_of_gt (by decide) (by omega) _

/-- Settles O34: a store of the registers and an advance of `I`, under the bounds check. -/
theorem dumpStoresTheRegisters : Obligations.DumpStoresTheRegisters := by
  unfold Obligations.DumpStoresTheRegisters
  refine fun s x => ⟨fun h => ?_, fun h => ?_⟩
  · have hn : x.val + 1 ≤ 16 := x.isLt
    have hfits : s.i.toNat + (x.val + 1) ≤ 0x1000 := by omega
    have hframe := (frame_store s s.i.toNat (s.firstRegs (x.val + 1))).trans (frame_advanceI _ (x.val + 1))
    refine ⟨_, checkRange_of_le hfits _, fun k hk => ?_, State.advanceI_toNat _ hfits, hframe.mono ?_⟩
    · exact s.read_store_firstRegs _ hn k (Nat.lt_succ_of_le hk)
    · rintro p (⟨a, rfl, hlo, hhi⟩ | rfl)
      · rw [s.firstRegs_length _ hn] at hhi
        exact .inr ⟨a, rfl, hlo, Nat.le_of_lt_succ hhi⟩
      · exact .inl rfl
  · exact checkRange_of_gt (Nat.succ_pos _) (by omega) _

/-- Settles O35: a load of the registers and an advance of `I`, under the bounds check. -/
theorem loadReadsTheRegisters : Obligations.LoadReadsTheRegisters := by
  unfold Obligations.LoadReadsTheRegisters
  refine fun s x => ⟨fun h => ?_, fun h => ?_⟩
  · have hn : x.val + 1 ≤ 16 := x.isLt
    have hfits : s.i.toNat + (x.val + 1) ≤ 0x1000 := by omega
    have hframe := (frame_loadFirst s s.i.toNat hn).trans (frame_advanceI _ (x.val + 1))
    refine ⟨_, checkRange_of_le hfits _, fun k hk => ?_, State.advanceI_toNat _ hfits, hframe.mono ?_⟩
    · exact (s.readV_loadFirst _ hn k).trans (if_pos (Nat.lt_succ_of_le hk))
    · rintro p (⟨k, rfl, hk⟩ | rfl)
      · exact .inr ⟨k, rfl, Nat.le_of_lt_succ hk⟩
      · exact .inl rfl
  · exact checkRange_of_gt (Nat.succ_pos _) (by omega) _

end Sys2Proof.Machine
end

section
/-! PROOFS. The display (`44_display.md` R210): the blank framebuffer, and what assigning the framebuffer
leaves unchanged. -/

namespace Sys2Proof.Machine

/-- No pixel of the blank framebuffer is set, inside the display or outside it (R210). -/
@[simp] theorem FrameBuffer.pixel_replicate_zero (x y : Nat) :
    FrameBuffer.pixel (Vector.replicate 32 0) x y = false := by
  unfold FrameBuffer.pixel
  split
  next hy =>
    rw [Vector.getElem_replicate hy]
    exact BitVec.getLsbD_zero
  next => rfl

/-- Assigning the framebuffer writes pixels and `DIRTY` only (R33). -/
theorem frame_writeFb (s : State) (fb : FrameBuffer) :
    Frame (fun p => p = .dirty ∨ ∃ x y, p = .pixel x y) s (s.writeFb fb) := by
  intro p hp
  cases p with
  | dirty => exact absurd (.inl rfl) hp
  | pixel x y => exact absurd (.inr ⟨x, y, rfl⟩) hp
  | _ => rfl

/-- Settles O38: the blank framebuffer is assigned, whatever was set before. -/
theorem clearTurnsEveryPixelOff : Obligations.ClearTurnsEveryPixelOff := by
  unfold Obligations.ClearTurnsEveryPixelOff
  intro s
  have hblank (x : Fin 64) (y : Fin 32) := FrameBuffer.pixel_replicate_zero x.val y.val
  exact ⟨_, rfl, hblank, State.writeFb_dirty s _, frame_writeFb s _⟩

end Sys2Proof.Machine
end

section
/-! PROOFS. The keypad (`45_keypad_timers.md` R230 to R232): the two key skips on each side of the last key
index, and one equation and one frame for each row of the state table of FX0A. -/

namespace Sys2Proof.Machine

/-! ### The key skips (R230, R231) -/

theorem exec_skp_of_lt {x : Reg} {s : State} (h : (s.readV x).toNat < 16) :
    exec (.skp x) s = .next (s.skipIf s.key[(s.readV x).toNat]) := by
  rw [exec, execSkp]
  exact withKey_next.mpr ⟨h, rfl⟩

theorem exec_sknp_of_lt {x : Reg} {s : State} (h : (s.readV x).toNat < 16) :
    exec (.sknp x) s = .next (s.skipIf (!s.key[(s.readV x).toNat])) := by
  rw [exec, execSknp]
  exact withKey_next.mpr ⟨h, rfl⟩

theorem exec_skp_of_ge {x : Reg} {s : State} (h : 16 ≤ (s.readV x).toNat) :
    exec (.skp x) s = .fault (.keypadIndex (s.readV x)) := by
  rw [exec, execSkp]
  exact withKey_fault.mpr ⟨h, rfl⟩

theorem exec_sknp_of_ge {x : Reg} {s : State} (h : 16 ≤ (s.readV x).toNat) :
    exec (.sknp x) s = .fault (.keypadIndex (s.readV x)) := by
  rw [exec, execSknp]
  exact withKey_fault.mpr ⟨h, rfl⟩

/-- Settles O42: the shared skip on the level of the key, where the keypad has it, and the fault elsewhere. -/
theorem keySkipsTestTheLevel : Obligations.KeySkipsTestTheLevel := by
  unfold Obligations.KeySkipsTestTheLevel
  refine fun s x => ⟨fun h => ⟨?_, ?_⟩, fun h => ⟨exec_skp_of_ge h, exec_sknp_of_ge h⟩⟩
  · exact ⟨_, exec_skp_of_lt (Nat.lt_succ_of_le h), s.skipIf_pc_of_iff Iff.rfl, frame_skipIf s _⟩
  · have hup := s.skipIf_pc_of_iff (Bool.not_eq_true' s.key[(s.readV x).toNat]).to_iff
    exact ⟨_, exec_sknp_of_lt (Nat.lt_succ_of_le h), hup, frame_skipIf s _⟩

/-! ### The rows of FX0A (R232) -/

section
variable (x : Reg) {s : State} {k : Fin 16}

theorem exec_ldVxK_of_idle_of_none (hkw : s.kw = .idle) (hkey : leastPressed s.key = none) :
    exec (.ldVxK x) s = .next s.again := by
  simp only [exec, execLdVxK, hkw, hkey]

theorem exec_ldVxK_of_idle_of_some (hkw : s.kw = .idle) (hkey : leastPressed s.key = some k) :
    exec (.ldVxK x) s = .next (s.again.writeKw (.latched k)) := by
  simp only [exec, execLdVxK, hkw, hkey]

theorem exec_ldVxK_of_latched_of_down (hkw : s.kw = .latched k) (hkey : s.key[k] = true) :
    exec (.ldVxK x) s = .next s.again := by
  simp only [exec, execLdVxK, hkw]
  exact if_pos hkey

theorem exec_ldVxK_of_latched_of_up (hkw : s.kw = .latched k) (hkey : s.key[k] = false) :
    exec (.ldVxK x) s = .next ((s.writeV x (BitVec.ofNat 8 k.val)).writeKw .idle) := by
  simp only [exec, execLdVxK, hkw]
  exact if_neg (ne_true_of_eq_false hkey)

end

/-! ### What a row writes -/

theorem frame_again (s : State) : Frame (fun p => p = .pc) s s.again :=
  frame_writePc s _

theorem frame_writeKw (s : State) (l : Latch) : Frame (fun p => p = .kw) s (s.writeKw l) := by
  intro p hp
  cases p with
  | kw => exact absurd rfl hp
  | _ => rfl

/-- A key index fits in a register. -/
theorem ofNat_key_toNat (k : Fin 16) : (BitVec.ofNat 8 k.val).toNat = k.val :=
  Nat.mod_eq_of_lt (by omega)

/-- On release the register holds the index of the key that was latched (R232). -/
theorem State.readV_writeV_key_toNat (s : State) (x : Reg) (k : Fin 16) :
    (((s.writeV x (BitVec.ofNat 8 k.val)).writeKw .idle).readV x).toNat = k.val := by
  rw [State.readV_writeKw, State.readV_writeV_self, ofNat_key_toNat]

/-- Settles O43: row by row, the equation of the row with the frames of its writes. -/
theorem waitForKeyFollowsItsTable : Obligations.WaitForKeyFollowsItsTable := by
  unfold Obligations.WaitForKeyFollowsItsTable
  refine fun s x => ⟨fun hkw hup => ?_, fun k hkw hdown hleast => ?_, fun k hkw hdown => ?_, fun k hkw hup => ?_⟩
  · have hkey : leastPressed s.key = none := leastPressed_eq_none.mpr hup
    exact ⟨_, exec_ldVxK_of_idle_of_none x hkw hkey, rfl, frame_again s⟩
  · have hkey : leastPressed s.key = some k := leastPressed_eq_some.mpr ⟨hdown, hleast⟩
    exact ⟨_, exec_ldVxK_of_idle_of_some x hkw hkey, rfl, rfl, (frame_again s).trans (frame_writeKw _ _)⟩
  · exact ⟨_, exec_ldVxK_of_latched_of_down x hkw hdown, rfl, frame_again s⟩
  · exact ⟨_, exec_ldVxK_of_latched_of_up x hkw hup, s.readV_writeV_key_toNat x k, rfl,
      (frame_writeV s x _).trans (frame_writeKw _ _)⟩

end Sys2Proof.Machine
end

section
/-! PROOFS. The two faults (`60_exceptions.md` R252, R255): each check against its row of the table of R66,
the instructions that cannot fault, and a cycle, which checks its fetch first. -/

namespace Sys2Proof.Machine

/-! ### The two checks as rows of the table -/

/-- The bounds check faults as a row of the table does whose condition says that a byte is above 0xFFF
(R66). -/
theorem checkRange_fault_iff_row {c : Prop} [Decidable c] {first len : Nat} {n : State} {f : Fault}
    (hc : c ↔ 0 < len ∧ 0x1000 < first + len) :
    checkRange first len n = .fault f ↔
      (if c then some (Fault.memoryBounds (max first 0x1000)) else none) = some f := by
  simp only [checkRange_fault, outOfBounds_eq_some, Option.ite_none_right_eq_some, hc]
  constructor
  · rintro ⟨_, ⟨hlen, hout, rfl⟩, rfl⟩
    exact ⟨⟨hlen, hout⟩, rfl⟩
  · rintro ⟨⟨hlen, hout⟩, hf⟩
    exact ⟨_, ⟨hlen, hout, rfl⟩, (Option.some.inj hf).symm⟩

/-- The keypad check faults as its row of the table does (R230, R231). -/
theorem withKey_fault_iff_row {value : Byte} {next : Fin 16 → State} {f : Fault} :
    withKey value next = .fault f ↔
      (if value.toNat > 15 then some (Fault.keypadIndex value) else none) = some f := by
  simp only [withKey_fault, Option.ite_none_right_eq_some, Option.some.injEq, eq_comm (a := f)]
  rfl

/-! ### The instructions with several outcomes and no fault -/

theorem execRet_not_fault {s : State} {f : Fault} : execRet s ≠ .fault f := by
  unfold execRet
  split <;> nofun

theorem execCall_not_fault {nnn : BitVec 12} {s : State} {f : Fault} : execCall nnn s ≠ .fault f := by
  unfold execCall
  split <;> nofun

theorem execLdVxK_not_fault {x : Reg} {s : State} {f : Fault} : execLdVxK x s ≠ .fault f := by
  unfold execLdVxK
  split <;> split <;> nofun

/-! ### An instruction -/

/-- An instruction faults exactly on its condition, with the recorded value (R252). -/
theorem exec_fault_iff {i : Instr} {s : State} {f : Fault} : exec i s = .fault f ↔ instrFault i s = some f := by
  cases i with
  | drw | ldB | dump | load => exact checkRange_fault_iff_row (by omega)
  | skp | sknp =>
    rw [exec]
    exact withKey_fault_iff_row
  | ret => exact iff_of_false execRet_not_fault nofun
  | call nnn => exact iff_of_false execCall_not_fault nofun
  | ldVxK x => exact iff_of_false execLdVxK_not_fault nofun
  | _ => exact iff_of_false nofun nofun

/-- The condition of a fault reads nothing that the start of the cycle writes (R121, R255). -/
theorem instrFault_beginCycle (i : Instr) (r : Option Byte) (s : State) :
    instrFault i (s.beginCycle r) = instrFault i s := by
  cases i <;> rfl

/-! ### A cycle -/

theorem State.faultOf_of_fetch_fault {s : State} (hp : 0xFFE < s.pc.toNat) :
    s.faultOf = some (.memoryBounds (max s.pc.toNat 0x1000)) :=
  if_pos hp

theorem State.faultOf_of_decodeWord {s : State} {i : Instr} (hp : s.pc.toNat ≤ 0xFFE)
    (hd : decodeWord (fetchWord s) = some i) : s.faultOf = instrFault i s := by
  rw [State.faultOf, if_neg (by omega), hd]

theorem State.faultOf_of_illegal {s : State} (hp : s.pc.toNat ≤ 0xFFE)
    (hd : decodeWord (fetchWord s) = none) : s.faultOf = none := by
  rw [State.faultOf, if_neg (by omega), hd]

/-- A cycle faults exactly on the fetch or on the condition of the fetched instruction (R252, R255). -/
theorem cycle_fault_iff {r : Option Byte} {s : State} {f : Fault} :
    cycle r s = .fault f ↔ s.faultOf = some f := by
  by_cases hp : s.pc.toNat ≤ 0xFFE
  · cases hd : decodeWord (fetchWord s) with
    | some i =>
      rw [cycle_fetch r s hp, execWord_some _ hd, State.faultOf_of_decodeWord hp hd, exec_fault_iff,
        instrFault_beginCycle]
    | none =>
      rw [cycle_illegal r s hp hd, State.faultOf_of_illegal hp hd]
      exact iff_of_false nofun nofun
  · rw [cycle_fetch_fault r s (by omega), State.faultOf_of_fetch_fault (by omega), Host.Outcome.fault.injEq,
      Option.some.injEq]

/-- Settles O8: a cycle is never refused, so where it does not fault it completes. -/
theorem cycleFaultsExactlyOnItsConditions : Obligations.CycleFaultsExactlyOnItsConditions := by
  unfold Obligations.CycleFaultsExactlyOnItsConditions
  refine fun r s => ⟨fun f => cycle_fault_iff, fun hnone => ?_, fun _ => rfl, fun _ => rfl⟩
  cases h : cycle r s with
  | next t => exact ⟨t, rfl⟩
  | fault f => exact absurd (hnone.symm.trans (cycle_fault_iff.mp h)) nofun
  | refused ρ => exact absurd h cycle_not_refused

end Sys2Proof.Machine
end

section
/-! PROOFS. Events of the host that write one piece of state or none (`60_exceptions.md` R258, R261, R264,
R265): the tick, run any number of times, the key write and the two views. -/

namespace Sys2Proof.Machine

/-! ### The tick -/

theorem tickDown_toNat (t : Byte) : (tickDown t).toNat = t.toNat - 1 := by
  unfold tickDown
  split
  next h => exact BitVec.toNat_sub_of_le (y := 1) (BitVec.le_def.mpr h)
  next h => omega

theorem frame_tickEvent (s : State) : Frame (fun p => p = .dt ∨ p = .st ∨ p = .out) s s.tickEvent := by
  intro p hp
  cases p with
  | dt | st | out => simp at hp
  | _ => rfl

/-- Settles O45, by induction on the number of ticks, from any state. -/
theorem ticksCountDownToZero : Obligations.TicksCountDownToZero := by
  unfold Obligations.TicksCountDownToZero
  intro n
  induction n with
  | zero => exact fun s => ⟨s, rfl, rfl, rfl, fun p _ => by cases p <;> rfl⟩
  | succ n ih =>
    intro s
    obtain ⟨t, hrun, hdt, hst, hframe⟩ := ih s.tickEvent
    have hsub (b : Byte) : (tickDown b).toNat - n = b.toNat - (n + 1) := by
      rw [tickDown_toNat, Nat.sub_sub, Nat.add_comm]
    exact ⟨t, hrun, hdt.trans (hsub s.dt), hst.trans (hsub s.st),
      ((frame_tickEvent s).trans hframe).mono fun _ => or_self_iff.mp⟩

/-! ### The key write -/

theorem frame_keyWriteEvent (s : State) (k : Fin 16) (b : Bool) :
    Frame (fun p => p = .key k ∨ p = .out) s (s.keyWriteEvent k b) := by
  intro p hp
  cases p with
  | out => exact absurd (.inr rfl) hp
  | key j =>
    have hj : j ≠ k := fun hj => hp (.inl (congrArg Part.key hj))
    exact (s.getElem_keyWriteEvent_key k b j).trans (if_neg hj)
  | _ => rfl

/-! ### The views -/

theorem frame_frameEvent (s : State) : Frame (fun p => p = .out) s s.frameEvent := by
  intro p hp
  cases p with
  | out => exact absurd rfl hp
  | _ => rfl

theorem frame_audibleEvent (s : State) : Frame (fun p => p = .out) s s.audibleEvent := by
  intro p hp
  cases p with
  | out => exact absurd rfl hp
  | _ => rfl

/-- The index of R32 gives back its column and its row. -/
theorem FrameBuffer.bit_index (fb : FrameBuffer) {x : Nat} (hx : x < 64) (y : Nat) :
    fb.bit (y * 64 + x) = fb.pixel x y := by
  have hcol : (y * 64 + x) % 64 = x := by omega
  have hrow : (y * 64 + x) / 64 = y := by omega
  rw [FrameBuffer.bit, hcol, hrow]

theorem State.audible_iff (s : State) : s.audible = true ↔ s.st.toNat ≠ 0 :=
  byte_bne_iff_toNat_ne

/-- Settles O47: one event at a time, its answer and its frame. -/
theorem keyWriteAndViews : Obligations.KeyWriteAndViews := by
  unfold Obligations.KeyWriteAndViews
  refine fun s k b => ⟨?_, ?_, ?_⟩
  · exact ⟨_, rfl, (s.getElem_keyWriteEvent_key k b k).trans (if_pos rfl), frame_keyWriteEvent s k b⟩
  · exact ⟨_, s.fb, rfl, rfl, fun x y => s.fb.bit_index x.isLt y.val, frame_frameEvent s⟩
  · exact ⟨_, s.audible, rfl, rfl, s.audible_iff, frame_audibleEvent s⟩

end Sys2Proof.Machine
end

section
/-! PROOFS. Reset and load (`70_reset_and_hazards.md` R300, R302, R303): what memory reads as after a reset
with a font table, and what the loader does with an image it takes and with one it refuses. -/

namespace Sys2Proof.Machine

/-! ### Memory after a reset -/

/-- Outside the font table an unlisted address reads as zero (R40). -/
theorem resetByte_of_not_font {a : Nat} (h : ¬(0x50 ≤ a ∧ a < 0xA0)) : resetByte a = 0 := by
  unfold resetByte
  split
  next hlo =>
    rw [Config.fontBase_eq] at hlo
    have hlen : 80 ≤ a - 0x50 := by omega
    exact List.getD_eq_default _ _ hlen
  next => rfl

/-- Inside the font table an unlisted address reads as the default table (R41). -/
theorem resetByte_fontBase_add {k : Nat} (h : k < fontTable.length) :
    resetByte (Config.fontBase + k) = fontTable[k] := by
  rw [resetByte, if_pos (Nat.le_add_right _ _), Nat.add_sub_cancel_left, List.getD_eq_getElem _ _ h]

/-- Bytes that unlisted addresses read as anyway need no cell (log 5). -/
theorem Memory.cells_eq_nil {a : Nat} {bs : List Byte}
    (h : ∀ (k : Nat) (hk : k < bs.length), resetByte (a + k) = bs[k]) : cells a bs = [] := by
  induction bs generalizing a with
  | nil => rfl
  | cons w bs ih =>
    have hhead : w = resetByte a := (h 0 (Nat.succ_pos _)).symm
    have htail : cells (a + 1) bs = [] := ih fun k hk => by
      rw [Nat.add_right_comm]
      exact h (k + 1) (Nat.succ_lt_succ hk)
    rw [cells, consCell, if_pos hhead, htail]

/-- What every byte reads as after a reset (R40). -/
theorem State.read_resetEvent (s : State) (font : Vector Byte 80) (a : Nat) :
    (s.resetEvent font).mem.read a = if h : 0x50 ≤ a ∧ a < 0xA0 then font[a - 0x50]'(by omega) else 0 := by
  refine (Memory.read_writeBytes [] Config.fontBase font.toList a).trans ?_
  simp only [Vector.length_toList, Config.fontBase_eq, Vector.getElem_toList]
  split
  next => rfl
  next h => exact resetByte_of_not_font h

/-- With the default table no byte differs from what an unlisted address reads as (R41, log 4). -/
theorem State.resetEvent_mem_of_default (s : State) {font : Vector Byte 80} (h : font.toList = fontTable) :
    (s.resetEvent font).mem = State.reset.mem := by
  have hcells : Memory.cells Config.fontBase font.toList = [] := by
    rw [h]
    exact Memory.cells_eq_nil fun _ => resetByte_fontBase_add
  exact congrArg (· ++ []) hcells

/-- Some table is the default one, so the claim about it is not empty. -/
theorem exists_default_font : ∃ font : Vector Byte 80, font.toList = fontTable :=
  ⟨⟨fontTable.toArray, rfl⟩, rfl⟩

/-- Settles O16: every field but memory is the one of the state of R40 by definition; memory is that of a
write of the table over the reset contents. -/
theorem resetSetsEveryPieceOfState : Obligations.ResetSetsEveryPieceOfState := by
  unfold Obligations.ResetSetsEveryPieceOfState
  intro s font
  refine ⟨s.resetEvent font, rfl, fun x => ?v, rfl, rfl, fun j => ?stack, rfl, rfl, rfl, rfl, fun x y => ?fb,
    rfl, s.getElem_resetEvent_key font, rfl, s.read_resetEvent font, s.resetEvent_mem_of_default⟩
  case v => exact Vector.getElem_replicate x.isLt
  case stack => exact Vector.getElem_replicate j.isLt
  case fb => exact FrameBuffer.pixel_replicate_zero x.val y.val

/-! ### The loader -/

theorem imageWellFormed_iff {image : List Byte} :
    imageWellFormed image = true ↔ 0 < image.length ∧ image.length ≤ 4096 - 0x200 := by
  rw [imageWellFormed, Bool.and_eq_true, decide_eq_true_iff, decide_eq_true_iff]

theorem event_load_of_wellFormed (s : State) {image : List Byte} (h : imageWellFormed image = true) :
    event (.load image) s = .next { (s.store 0x200 image).writePc 0x200 with out := .loaded .none } :=
  congrArg Host.Outcome.next (if_pos h)

theorem event_load_of_not_wellFormed (s : State) {image : List Byte} (h : ¬imageWellFormed image = true) :
    event (.load image) s = .next { s with out := .loaded (.loadError image.length) } :=
  congrArg Host.Outcome.next (if_neg h)

/-- Answering the host writes the output only (R251). -/
theorem frame_out (s : State) (o : Output) : Frame (fun p => p = .out) s { s with out := o } := by
  intro p hp
  cases p with
  | out => exact absurd rfl hp
  | _ => rfl

/-- Settles O46: an image the loader takes is one store and one write of `PC`; any other is an answer only. -/
theorem loadCopiesTheImageOrNothing : Obligations.LoadCopiesTheImageOrNothing := by
  unfold Obligations.LoadCopiesTheImageOrNothing
  refine fun s image => ⟨fun hpos hlen => ?_, fun hlen => ?_⟩
  · have hload := event_load_of_wellFormed s (imageWellFormed_iff.mpr ⟨hpos, hlen⟩)
    have hframe := ((frame_store s 0x200 image).trans (frame_writePc _ 0x200)).trans
      (frame_out _ (.loaded .none))
    refine ⟨_, hload, rfl, rfl, fun j hj => s.read_store 0x200 image hj, hframe.mono ?_⟩
    rintro p ((hbyte | hpc) | hout)
    · exact .inr (.inr hbyte)
    · exact .inl hpc
    · exact .inr (.inl hout)
  · have hbad : ¬imageWellFormed image = true := fun h => by
      obtain ⟨hpos, hmax⟩ := imageWellFormed_iff.mp h
      omega
    exact ⟨_, event_load_of_not_wellFormed s hbad, rfl, frame_out s _⟩

end Sys2Proof.Machine
end

section
/-! PROOFS. The decoder and the encoder are inverse to each other (`30_encoding.md` R92, R94, R98), and which
words the decoder takes for no instruction, group by group (R95, R96, R97, R99). -/

namespace Sys2Proof

/-! ### Decoding what was encoded -/

/-- The decoder reads back every operand the encoder packed: the primary opcode selects the group, and in a
group with a secondary opcode that one selects the instruction. -/
theorem decodeWord_encode (i : Instr) : decodeWord (encode i) = some i := by
  cases i with
  | cls | ret => rfl
  | jp | call | ldI | jpV0 => simp [encode, decodeWord]
  | seImm | sneImm | ldImm | addImm | rnd => simp [encode, decodeWord]
  | seReg | sneReg | drw => simp [encode, decodeWord]
  | ldReg | or | and | xor | addReg | sub | shr | subn | shl => simp [encode, decodeWord, decodeGroup8]
  | skp | sknp => simp [encode, decodeWord, decodeGroupE]
  | ldVxDt | ldVxK | ldDtVx | ldStVx | addI | ldF | ldB | dump | load => simp [encode, decodeWord, decodeGroupF]

/-- So does decoding the two bytes, whatever follows them (R63). -/
theorem decode_encodeBytes (i : Instr) (rest : List Byte) : decode (encodeBytes i ++ rest) = .ok (i, rest) := by
  simp [encodeBytes, decode, decodeWord_encode]

/-- Settles O2: the decoder undoes the encoder, on the word and on its two bytes. -/
theorem decodeInvertsEncode : Obligations.DecodeInvertsEncode := by
  unfold Obligations.DecodeInvertsEncode
  exact fun i => ⟨decodeWord_encode i, decode_encodeBytes i⟩

/-- Settles O3: the decoder ignores no bit of a word it accepts. -/
theorem encodeInvertsDecode : Obligations.EncodeInvertsDecode := by
  unfold Obligations.EncodeInvertsDecode
  exact fun _ _ => encode_of_decodeWord

/-- Settles O1, by running the decoder on the nine words. -/
theorem specWordsDecode : Obligations.SpecWordsDecode := by
  unfold Obligations.SpecWordsDecode
  decide

/-! ### The illegal words -/

theorem decodeGroup0_eq_none {op : Word} : decodeGroup0 op = none ↔ op ≠ 0x00E0 ∧ op ≠ 0x00EE := by
  unfold decodeGroup0
  split_ifs with hcls hret
  · simp [hcls]
  · simp [hret]
  · exact iff_of_true rfl ⟨hcls, hret⟩

theorem decodeGroup8_eq_none {op : Word} :
    decodeGroup8 op = none ↔ fieldN op ∈ [0x8, 0x9, 0xA, 0xB, 0xC, 0xD, 0xF] := by
  unfold decodeGroup8
  split
  case h_10 =>
    simp only [List.mem_cons, List.not_mem_nil, or_false, true_iff, imp_false] at *
    bv_omega
  all_goals simp [*]

theorem decodeGroupE_eq_none {op : Word} : decodeGroupE op = none ↔ fieldNN op ∉ [0x9E, 0xA1] := by
  unfold decodeGroupE
  split
  case h_3 => simp_all
  all_goals simp [*]

theorem decodeGroupF_eq_none {op : Word} :
    decodeGroupF op = none ↔ fieldNN op ∉ [0x07, 0x0A, 0x15, 0x18, 0x1E, 0x29, 0x33, 0x55, 0x65] := by
  unfold decodeGroupF
  split
  case h_10 => simp_all
  all_goals simp [*]

/-- Only the groups 0, 5, 8, 9, E and F have illegal words; in groups 5 and 9 they are those with a last digit
other than 0. -/
theorem decodeWord_eq_none {op : Word} : decodeWord op = none ↔
    (fieldG op = 0x0 ∧ decodeGroup0 op = none) ∨ (fieldG op = 0x5 ∧ fieldN op ≠ 0) ∨
    (fieldG op = 0x8 ∧ decodeGroup8 op = none) ∨ (fieldG op = 0x9 ∧ fieldN op ≠ 0) ∨
    (fieldG op = 0xE ∧ decodeGroupE op = none) ∨ (fieldG op = 0xF ∧ decodeGroupF op = none) := by
  unfold decodeWord
  split
  case h_16 =>
    have hG : fieldG op = 0xF := by
      simp only [imp_false] at *
      bv_omega
    simp [hG]
  all_goals simp [*]

/-- Settles O5: group by group, the words its decoder rejects. -/
theorem illegalWordsByGroup : Obligations.IllegalWordsByGroup := by
  unfold Obligations.IllegalWordsByGroup
  intro op
  rw [decodeWord_eq_none, decodeGroup0_eq_none, decodeGroup8_eq_none, decodeGroupE_eq_none,
    decodeGroupF_eq_none]

end Sys2Proof
end

section
/-! PROOFS. What an instruction writes (`40_cycle.md` R130): the sprite in closed form, the frame of every
instruction, and from it which instructions may write a given part of the state. -/

namespace Sys2Proof.Machine

/-! ### The sprite in closed form (R211) -/

section
variable (d : Drawing) (m : Memory) (a x0 y0 n : Nat)

/-- Drawing inverts exactly the pixels of the display on which the sprite has a 1 bit. -/
theorem Drawing.rows_pixel_iff (px : Fin 64) (py : Fin 32) :
    (d.rows m a x0 y0 n).fb.pixel px.val py.val = true ↔
      ¬(d.fb.pixel px.val py.val = true ↔ spriteBit m a x0 y0 n px.val py.val) := by
  have hbit : spriteBit m a x0 y0 n px.val py.val ↔
      (decide (x0 ≤ px.val ∧ px.val < x0 + 8 ∧ y0 ≤ py.val ∧ py.val < y0 + n ∧ px.val < 64 ∧ py.val < 32) &&
        (m.read (a + (py.val - y0))).getLsbD (7 - (px.val - x0))) = true := by
    simp [spriteBit, and_assoc]
  rw [hbit, Drawing.rows_pixel, Bool.xor_iff_ne, ne_eq, Bool.eq_iff_iff]

theorem Drawing.rows_pixel_of_not_spriteBit {px : Fin 64} {py : Fin 32}
    (h : ¬spriteBit m a x0 y0 n px.val py.val) :
    (d.rows m a x0 y0 n).fb.pixel px.val py.val = d.fb.pixel px.val py.val := by
  rw [Bool.eq_iff_iff, Drawing.rows_pixel_iff, iff_false_right h, not_not]

/-- A collision is a 1 bit of the sprite on a pixel of the display that was set. -/
theorem Drawing.rows_hit_iff : (d.rows m a x0 y0 n).hit = true ↔ d.hit = true ∨
    ∃ (px : Fin 64) (py : Fin 32), d.fb.pixel px.val py.val = true ∧ spriteBit m a x0 y0 n px.val py.val := by
  rw [Drawing.rows_hit]
  refine or_congr_right ⟨?_, ?_⟩
  · rintro ⟨r, hr, c, hc, hbit, hx, hy, hset⟩
    refine ⟨⟨x0 + c, hx⟩, ⟨y0 + r, hy⟩, hset, by simp, by simpa, by simp, by simpa, ?_⟩
    simpa using hbit
  · rintro ⟨px, py, hset, hx, hx', hy, hy', hbit⟩
    refine ⟨py.val - y0, by omega, px.val - x0, by omega, hbit, ?_⟩
    simpa [Nat.add_sub_cancel' hx, Nat.add_sub_cancel' hy] using hset

end

/-! ### The frame of every instruction -/

theorem frame_nextDraw (s : State) : Frame (fun p => p = .rndIndex) s s.nextDraw := by
  intro p hp
  cases p with
  | rndIndex => exact absurd rfl hp
  | _ => rfl

theorem frame_writeDt (s : State) (b : Byte) : Frame (fun p => p = .dt) s (s.writeDt b) := by
  intro p hp
  cases p with
  | dt => exact absurd rfl hp
  | _ => rfl

theorem frame_writeSt (s : State) (b : Byte) : Frame (fun p => p = .st) s (s.writeSt b) := by
  intro p hp
  cases p with
  | st => exact absurd rfl hp
  | _ => rfl

theorem execRet_frame {s t : State} (h : execRet s = .next t) : Frame (writesOf .ret s) s t := by
  obtain ⟨hsp, rfl⟩ | ⟨hsp, rfl⟩ := execRet_next h
  · exact ((frame_pop s).trans (frame_writePc _ _)).mono fun p hp => by simpa [writesOf, hsp] using hp.symm
  · exact (frame_report s _).mono fun p hp => by simpa [writesOf, hsp] using hp

theorem execCall_frame {nnn : BitVec 12} {s t : State} (h : execCall nnn s = .next t) :
    Frame (writesOf (.call nnn) s) s t := by
  obtain ⟨hsp, rfl⟩ | ⟨hsp, rfl⟩ := execCall_next h
  · exact ((frame_push s s.pc hsp).trans (frame_writePc _ _)).mono fun p hp => by
      simpa [writesOf, hsp] using hp.symm
  · exact (frame_report s _).mono fun p hp => by simpa [writesOf, hsp] using hp

theorem execLdVxK_frame {x : Reg} {s t : State} (h : execLdVxK x s = .next t) :
    Frame (writesOf (.ldVxK x) s) s t := by
  obtain ⟨hkw, -, rfl⟩ | ⟨k, hkw, -, rfl⟩ | ⟨k, hkw, hkey, rfl⟩ | ⟨k, hkw, hkey, rfl⟩ := execLdVxK_next h
  · exact (frame_again s).mono fun p hp => by simpa [writesOf, hkw] using .inl hp
  · exact ((frame_again s).trans (frame_writeKw _ _)).mono fun p hp => by simpa [writesOf, hkw] using hp
  · exact (frame_again s).mono fun p hp => by simp only [writesOf, hkw, if_pos hkey]; exact hp
  · refine ((frame_writeV s x _).trans (frame_writeKw _ _)).mono fun p hp => ?_
    simp only [writesOf, hkw, hkey]
    simpa using hp

/-- The state DXYN leaves where it completes. -/
def State.drawn (s : State) (x y : Reg) (n : BitVec 4) : State :=
  (s.writeV vf (flagByte (s.sprite x y n).hit)).writeFb (s.sprite x y n).fb

/-- DXYN writes VF, `DIRTY` and pixels of the sprite's rectangle (R211). -/
theorem frame_drawn (s : State) (x y : Reg) (n : BitVec 4) :
    Frame (writesOf (.drw x y n) s) s (s.drawn x y n) := by
  intro p hp
  cases p with
  | pixel px py =>
    refine Drawing.rows_pixel_of_not_spriteBit _ _ _ _ _ _ fun ⟨hx, hx', hy, hy', _⟩ => hp ?_
    exact .inr (.inr ⟨px, py, rfl, hx, hx', hy, hy'⟩)
  | dirty => exact absurd (.inr (.inl rfl)) hp
  | v k => exact frame_writeV s vf _ (.v k) fun hk => hp (.inl hk)
  | _ => rfl

theorem frame_dump (s : State) (x : Reg) : Frame (writesOf (.dump x) s) s
    ((s.store s.i.toNat (s.firstRegs (x.val + 1))).advanceI (x.val + 1)) := by
  refine ((frame_store s _ _).trans (frame_advanceI _ _)).mono ?_
  rintro p (⟨a, rfl, hlo, hhi⟩ | rfl)
  · rw [s.firstRegs_length _ x.isLt] at hhi
    exact .inr ⟨a, rfl, hlo, Nat.le_of_lt_succ hhi⟩
  · exact .inl rfl

theorem frame_load (s : State) (x : Reg) : Frame (writesOf (.load x) s) s
    ((s.loadFirst s.i.toNat (x.val + 1)).advanceI (x.val + 1)) := by
  refine ((frame_loadFirst s _ x.isLt).trans (frame_advanceI _ _)).mono ?_
  rintro p (⟨k, rfl, hk⟩ | rfl)
  · exact .inr ⟨k, rfl, Nat.le_of_lt_succ hk⟩
  · exact .inl rfl

/-- An instruction that completes changes only the parts on its write list (R130). -/
theorem exec_frame {i : Instr} {s t : State} (h : exec i s = .next t) : Frame (writesOf i s) s t := by
  cases i with
  | ret => exact execRet_frame h
  | call nnn => exact execCall_frame h
  | ldVxK x => exact execLdVxK_frame h
  | drw x y n =>
    obtain ⟨-, rfl⟩ := checkRange_next.mp h
    exact frame_drawn s x y n
  | ldB x =>
    obtain ⟨-, rfl⟩ := checkRange_next.mp h
    exact frame_store s _ (bcdDigits (s.readV x))
  | dump x =>
    obtain ⟨-, rfl⟩ := checkRange_next.mp h
    exact frame_dump s x
  | load x =>
    obtain ⟨-, rfl⟩ := checkRange_next.mp h
    exact frame_load s x
  | skp x =>
    obtain ⟨_, rfl⟩ := execSkp_next h
    exact frame_skipIf s _
  | sknp x =>
    obtain ⟨_, rfl⟩ := execSknp_next h
    exact frame_skipIf s _
  | cls =>
    obtain rfl := Host.Outcome.next.inj h
    exact frame_writeFb s _
  | jp | jpV0 =>
    obtain rfl := Host.Outcome.next.inj h
    exact frame_writePc s _
  | seImm | sneImm | seReg | sneReg =>
    obtain rfl := Host.Outcome.next.inj h
    exact frame_skipIf s _
  | ldImm | addImm | ldReg | ldVxDt =>
    obtain rfl := Host.Outcome.next.inj h
    exact frame_writeV s _ _
  | or | and | xor | addReg | sub | shr | subn | shl =>
    obtain rfl := Host.Outcome.next.inj h
    exact frame_writeVFlag s _ _ _
  | ldI | addI | ldF =>
    obtain rfl := Host.Outcome.next.inj h
    exact frame_writeI s _
  | rnd x nn =>
    obtain rfl := Host.Outcome.next.inj h
    exact ((frame_nextDraw s).trans (frame_writeV _ x _)).mono fun _ => Or.symm
  | ldDtVx =>
    obtain rfl := Host.Outcome.next.inj h
    exact frame_writeDt s _
  | ldStVx =>
    obtain rfl := Host.Outcome.next.inj h
    exact frame_writeSt s _

/-! ### Who may write a part -/

/-- The instructions that may write a part, where the statements name them: none writes `KEY`, and each of
the timers, the display, the latch and the stack has its own (R130). -/
def Part.writtenBy (i : Instr) : Part → Prop
  | .dt => ∃ x, i = .ldDtVx x
  | .st => ∃ x, i = .ldStVx x
  | .pixel _ _ | .dirty => i = .cls ∨ ∃ x y n, i = .drw x y n
  | .kw => ∃ x, i = .ldVxK x
  | .slot _ | .sp => i = .ret ∨ ∃ nnn, i = .call nnn
  | .key _ => False
  | _ => True

theorem writtenBy_of_writesOf {i : Instr} {s : State} {p : Part} (h : writesOf i s p) : p.writtenBy i := by
  cases i with
  | cls => obtain rfl | ⟨x, y, rfl⟩ := h <;> exact .inl rfl
  | drw x y n => obtain rfl | rfl | ⟨px, py, rfl, -⟩ := h <;> simp [Part.writtenBy]
  | ret =>
    simp only [writesOf] at h
    split at h
    · obtain rfl | rfl := h <;> simp [Part.writtenBy]
    · obtain rfl := h
      trivial
  | call nnn =>
    simp only [writesOf] at h
    split at h
    · obtain rfl | rfl | rfl := h <;> simp [Part.writtenBy]
    · obtain rfl := h
      trivial
  | ldVxK x =>
    simp only [writesOf] at h
    split at h
    · obtain rfl | rfl := h <;> simp [Part.writtenBy]
    · split at h
      · obtain rfl := h
        trivial
      · obtain rfl | rfl := h <;> simp [Part.writtenBy]
  | ldDtVx x | ldStVx x =>
    obtain rfl := h
    exact ⟨x, rfl⟩
  | ldB =>
    obtain ⟨a, rfl, -⟩ := h
    trivial
  | dump | load =>
    obtain rfl | ⟨_, rfl, -⟩ := h <;> trivial
  | or | and | xor | addReg | sub | shr | subn | shl | rnd =>
    obtain rfl | rfl := h <;> trivial
  | _ =>
    obtain rfl := h
    trivial

/-- A part stays as it is under every instruction that is not one of its own. -/
theorem exec_next_same {i : Instr} {s t : State} {p : Part} (h : exec i s = .next t) (hp : ¬p.writtenBy i) :
    p.same s t :=
  exec_frame h p fun hw => hp (writtenBy_of_writesOf hw)

theorem FrameBuffer.ext_pixel {fb fb' : FrameBuffer}
    (h : ∀ (x : Fin 64) (y : Fin 32), fb.pixel x.val y.val = fb'.pixel x.val y.val) : fb = fb' := by
  refine Vector.ext fun y hy => BitVec.eq_of_getLsbD_eq fun x hx => ?_
  simpa [FrameBuffer.pixel, hy] using h ⟨x, hx⟩ ⟨y, hy⟩

theorem exec_next_fb {i : Instr} {s t : State} (h : exec i s = .next t)
    (hi : ¬(i = .cls ∨ ∃ x y n, i = .drw x y n)) : t.fb = s.fb :=
  FrameBuffer.ext_pixel fun x y => exec_next_same (p := .pixel x y) h hi

theorem exec_next_stack {i : Instr} {s t : State} (h : exec i s = .next t)
    (hi : ¬(i = .ret ∨ ∃ nnn, i = .call nnn)) : t.stack = s.stack :=
  Vector.ext fun j hj => exec_next_same (p := .slot ⟨j, hj⟩) h hi

/-- Settles O13: the frame of every instruction, and for each part the instructions that may write it. -/
theorem instructionWritesOnlyItsList : Obligations.InstructionWritesOnlyItsList := by
  unfold Obligations.InstructionWritesOnlyItsList
  intro i s t h
  refine ⟨exec_frame h, exec_next_key h, fun hdt => ?_, fun hst => ?_, fun hfb => ?_, fun hkw => ?_,
    fun hstack => ?_⟩ <;> by_contra hi
  · exact hdt (exec_next_same (p := .dt) h hi)
  · exact hst (exec_next_same (p := .st) h hi)
  · exact hfb.elim (· (exec_next_fb h hi)) (· (exec_next_same (p := .dirty) h hi))
  · exact hkw (exec_next_same (p := .kw) h hi)
  · exact hstack.elim (· (exec_next_stack h hi)) (· (exec_next_same (p := .sp) h hi))

end Sys2Proof.Machine
end

section
/-! PROOFS. What every step keeps (`20_memory.md` R60, `41_flow.md` R140): memory in canonical form (log 5),
because every store is inside memory, and the stack slots in use as calls leave them. -/

namespace Sys2Proof.Machine

/-! ### Memory -/

/-- An instruction leaves memory, or stores bytes at `I` inside it (R66, R193, R194). -/
theorem exec_next_mem {i : Instr} {s t : State} (h : exec i s = .next t) :
    t.mem = s.mem ∨ ∃ bs, bs ≠ [] ∧ outOfBounds s.i.toNat bs.length = none ∧
      t.mem = (s.store s.i.toNat bs).mem := by
  cases i with
  | ldB x =>
    obtain ⟨hb, rfl⟩ := checkRange_next.mp h
    exact .inr ⟨bcdDigits (s.readV x), nofun, hb, rfl⟩
  | dump x =>
    obtain ⟨hb, rfl⟩ := checkRange_next.mp h
    have hlen : (s.firstRegs (x.val + 1)).length = x.val + 1 := s.firstRegs_length _ x.isLt
    refine .inr ⟨s.firstRegs (x.val + 1), List.ne_nil_of_length_eq_add_one hlen, ?_, rfl⟩
    rwa [hlen]
  | drw | load =>
    obtain ⟨-, rfl⟩ := checkRange_next.mp h
    exact .inl rfl
  | ret => obtain ⟨_, rfl⟩ | ⟨-, rfl⟩ := execRet_next h <;> exact .inl rfl
  | call nnn => obtain ⟨_, rfl⟩ | ⟨-, rfl⟩ := execCall_next h <;> exact .inl rfl
  | ldVxK x =>
    obtain ⟨-, -, rfl⟩ | ⟨_, -, -, rfl⟩ | ⟨_, -, -, rfl⟩ | ⟨_, -, -, rfl⟩ := execLdVxK_next h <;> exact .inl rfl
  | skp x =>
    obtain ⟨_, rfl⟩ := execSkp_next h
    exact .inl (State.skipIf_mem ..)
  | sknp x =>
    obtain ⟨_, rfl⟩ := execSknp_next h
    exact .inl (State.skipIf_mem ..)
  | seImm | sneImm | seReg | sneReg =>
    obtain rfl := Host.Outcome.next.inj h
    exact .inl (State.skipIf_mem ..)
  | _ =>
    obtain rfl := Host.Outcome.next.inj h
    exact .inl rfl

theorem exec_keeps_wf {i : Instr} {s t : State} (h : exec i s = .next t) (hs : Memory.wf s.mem = true) :
    Memory.wf t.mem = true := by
  obtain hmem | ⟨bs, hne, hb, hmem⟩ := exec_next_mem h <;> rw [hmem]
  · exact hs
  · exact wf_store hs _ bs hb hne

/-! ### The stack -/

/-- The invariant speaks of the stack and its depth only. -/
theorem State.StackInv.congr {s t : State} (hs : s.StackInv) (hstack : t.stack = s.stack) (hsp : t.sp = s.sp) :
    t.StackInv := by
  unfold State.StackInv
  rwa [hstack, hsp]

theorem State.StackInv.pop {s : State} (hs : s.StackInv) : s.pop.StackInv :=
  fun j hj => hs j (Nat.lt_of_lt_of_le hj (Nat.sub_le _ _))

/-- A push of an address that a call can push keeps the invariant (R140, R142). -/
theorem State.StackInv.push {s : State} (hs : s.StackInv) {w : Word} (hw : 2 ≤ w.toNat ∧ w.toNat ≤ 0x1000)
    (h : s.sp.val < 12) : (s.push w h).StackInv := by
  intro j hj
  by_cases hslot : j.val = s.sp.val
  · simpa [hslot] using hw
  · have hlt : j.val < s.sp.val := by
      simp only [State.push_sp] at hj
      omega
    simpa [Vector.getElem_set, Ne.symm hslot] using hs j hlt

/-- An instruction at an address that can be fetched keeps the invariant: only a call and a return write the
stack. -/
theorem exec_keeps_stackInv {i : Instr} {s t : State} (h : exec i s = .next t) (hs : s.StackInv)
    (hpc : 2 ≤ s.pc.toNat ∧ s.pc.toNat ≤ 0x1000) : t.StackInv := by
  by_cases hi : i = .ret ∨ ∃ nnn, i = .call nnn
  · obtain rfl | ⟨nnn, rfl⟩ := hi
    · obtain ⟨_, rfl⟩ | ⟨-, rfl⟩ := execRet_next h
      · exact hs.pop.congr rfl rfl
      · exact hs.congr rfl rfl
    · obtain ⟨hsp, rfl⟩ | ⟨-, rfl⟩ := execCall_next h
      · exact (hs.push hpc hsp).congr rfl rfl
      · exact hs.congr rfl rfl
  · exact hs.congr (exec_next_stack h hi) (exec_next_same (p := .sp) h hi)

/-! ### A cycle, an event, a step -/

/-- The advance of `PC` does not wrap where the fetch exists (R121). -/
theorem State.beginCycle_pc_toNat {s : State} (r : Option Byte) (hp : s.pc.toNat ≤ 0xFFE) :
    (s.beginCycle r).pc.toNat = s.pc.toNat + 2 := by
  rw [State.beginCycle_pc]
  bv_omega

theorem cycle_keeps_inv {r : Option Byte} {s t : State} (h : cycle r s = .next t) (hs : s.Inv) : t.Inv := by
  obtain ⟨hmem, hstack⟩ := hs
  have hstack' : (s.beginCycle r).StackInv := hstack.congr rfl rfl
  obtain ⟨hp, ⟨i, -, hi⟩ | ⟨-, rfl⟩⟩ := cycle_next h
  · have hpc := State.beginCycle_pc_toNat r hp
    exact ⟨exec_keeps_wf hi hmem, exec_keeps_stackInv hi hstack' (by omega)⟩
  · exact ⟨hmem, hstack'.congr rfl rfl⟩

theorem resetEvent_inv (s : State) (font : Vector Byte 80) : (s.resetEvent font).Inv := by
  refine ⟨Memory.wf_writeBytes wf_reset Config.fontBase font.toList ?_, nofun⟩
  simp

theorem loadEvent_keeps_inv {s : State} (bytes : List Byte) (hs : s.Inv) : (s.loadEvent bytes).Inv := by
  obtain ⟨hmem, hstack⟩ := hs
  unfold State.loadEvent
  split
  next hwf =>
    obtain ⟨-, hmax⟩ := imageWellFormed_iff.mp hwf
    refine ⟨Memory.wf_writeBytes hmem Config.progBase bytes ?_, hstack.congr rfl rfl⟩
    simp only [Config.progBase_eq, Config.memSize_eq]
    omega
  next => exact ⟨hmem, hstack.congr rfl rfl⟩

theorem event_keeps_inv {e : HostEvent} {s t : State} (h : event e s = .next t) (hs : s.Inv) : t.Inv := by
  cases e with
  | cycle r => exact cycle_keeps_inv h hs
  | reset font =>
    obtain rfl := Host.Outcome.next.inj h
    exact resetEvent_inv s font
  | load bytes =>
    obtain rfl := Host.Outcome.next.inj h
    exact loadEvent_keeps_inv bytes hs
  | tick | keyWrite | redrawQuery | readFb | readAudible =>
    obtain rfl := Host.Outcome.next.inj h
    obtain ⟨hmem, hstack⟩ := hs
    exact ⟨hmem, hstack.congr rfl rfl⟩

/-- Settles O15: a step is a cycle or one event of the host, and the list of events is no part of the
invariant. -/
theorem stepKeepsTheInvariant : Obligations.StepKeepsTheInvariant := by
  unfold Obligations.StepKeepsTheInvariant
  intro s t hs h
  cases hh : s.host with
  | nil =>
    rw [step_empty hh] at h
    exact cycle_keeps_inv h hs
  | cons e rest =>
    rw [step_event hh] at h
    obtain ⟨hmem, hstack⟩ := hs
    exact event_keeps_inv h ⟨hmem, hstack.congr rfl rfl⟩

/-- Settles O14: after reset memory lists nothing and no slot is in use. -/
theorem resetStateHasTheInvariant : Obligations.ResetStateHasTheInvariant := by
  unfold Obligations.ResetStateHasTheInvariant
  exact ⟨wf_reset, nofun⟩

end Sys2Proof.Machine
end

section
/-! PROOFS. Completion, the timers, `PC` and the step, from what each instruction writes: an instruction
completes unless it faults (`60_exceptions.md` R252), a timer has its own writers and no instruction reads `ST`
(`10_state.md` R30), the table of `PC` (R26), and what a step runs (`40_cycle.md` R121, R308). -/

namespace Sys2Proof.Machine

/-- Settles O11: an instruction faults exactly on its condition and is never refused. -/
theorem instructionCompletesUnlessItsFaultHolds : Obligations.InstructionCompletesUnlessItsFaultHolds := by
  unfold Obligations.InstructionCompletesUnlessItsFaultHolds
  refine fun i s => ⟨fun hnone => ?_, fun f => exec_fault_iff.mpr⟩
  cases h : exec i s with
  | next t => exact ⟨t, rfl⟩
  | fault f => exact absurd (hnone.symm.trans (exec_fault_iff.mp h)) nofun
  | refused ρ => exact absurd h exec_not_refused

/-! ### The timers (R30) -/

theorem State.nextInstr_eq_some {s : State} {i : Instr} :
    s.nextInstr = some i ↔ s.pc.toNat ≤ 0xFFE ∧ decodeWord (fetchWord s) = some i :=
  Option.ite_none_right_eq_some

/-- A cycle leaves a part other than the output, unless it executes one of the part's own instructions. -/
theorem cycle_next_same {p : Part} {r : Option Byte} {s t : State} (hout : p ≠ .out) (h : cycle r s = .next t) :
    p.same (s.beginCycle r) t ∨
      ∃ i, s.nextInstr = some i ∧ p.writtenBy i ∧ exec i (s.beginCycle r) = .next t := by
  obtain ⟨hp, ⟨i, hd, hi⟩ | ⟨-, rfl⟩⟩ := cycle_next h
  · by_cases hw : p.writtenBy i
    · exact .inr ⟨i, State.nextInstr_eq_some.mpr ⟨hp, hd⟩, hw, hi⟩
    · exact .inl (exec_next_same hi hw)
  · exact .inl (frame_report _ _ p hout)

theorem cycle_next_dt {r : Option Byte} {s t : State} (h : cycle r s = .next t) :
    t.dt = s.dt ∨ ∃ x, s.nextInstr = some (.ldDtVx x) ∧ t.dt = s.readV x := by
  obtain hsame | ⟨i, hi, ⟨x, rfl⟩, hexec⟩ := cycle_next_same (p := .dt) nofun h
  · exact .inl hsame
  · obtain rfl := Host.Outcome.next.inj hexec
    exact .inr ⟨x, hi, rfl⟩

theorem cycle_next_st {r : Option Byte} {s t : State} (h : cycle r s = .next t) :
    t.st = s.st ∨ ∃ x, s.nextInstr = some (.ldStVx x) ∧ t.st = s.readV x := by
  obtain hsame | ⟨i, hi, ⟨x, rfl⟩, hexec⟩ := cycle_next_same (p := .st) nofun h
  · exact .inl hsame
  · obtain rfl := Host.Outcome.next.inj hexec
    exact .inr ⟨x, hi, rfl⟩

/-- An event leaves both timers, unless it is a tick, a reset or a cycle. -/
theorem event_next_timers {e : HostEvent} {s t : State} (h : event e s = .next t) :
    (t.dt = s.dt ∧ t.st = s.st) ∨ (e = .tick ∧ t = s.tickEvent) ∨
      (∃ font, e = .reset font ∧ t = s.resetEvent font) ∨ ∃ r, e = .cycle r ∧ cycle (some r) s = .next t := by
  cases e with
  | cycle r => exact .inr (.inr (.inr ⟨r, rfl, h⟩))
  | tick => exact .inr (.inl ⟨rfl, (Host.Outcome.next.inj h).symm⟩)
  | reset font => exact .inr (.inr (.inl ⟨font, rfl, (Host.Outcome.next.inj h).symm⟩))
  | load bytes =>
    obtain rfl := Host.Outcome.next.inj h
    unfold State.loadEvent
    split <;> exact .inl ⟨rfl, rfl⟩
  | keyWrite | redrawQuery | readFb | readAudible =>
    obtain rfl := Host.Outcome.next.inj h
    exact .inl ⟨rfl, rfl⟩

/-- Settles O18: a step is a cycle, or an event, of which only the tick and the reset touch the timers. -/
theorem timersChangeOnlyByWriteOrTick : Obligations.TimersChangeOnlyByWriteOrTick := by
  unfold Obligations.TimersChangeOnlyByWriteOrTick
  intro s t h
  cases hh : s.host with
  | nil =>
    rw [step_empty hh] at h
    exact ⟨(cycle_next_dt h).imp_right fun hx => .inr (.inr ⟨.inl rfl, hx⟩),
      (cycle_next_st h).imp_right fun hx => .inr (.inr ⟨.inl rfl, hx⟩)⟩
  | cons e rest =>
    rw [step_event hh] at h
    obtain ⟨hdt, hst⟩ | ⟨rfl, rfl⟩ | ⟨font, rfl, rfl⟩ | ⟨r, rfl, hc⟩ := event_next_timers h
    · exact ⟨.inl hdt, .inl hst⟩
    · exact ⟨.inr (.inl ⟨rest, rfl, tickDown_toNat s.dt⟩), .inr (.inl ⟨rest, rfl, tickDown_toNat s.st⟩)⟩
    · exact ⟨.inr (.inr (.inl ⟨font, rest, rfl, rfl⟩)), .inr (.inr (.inl ⟨font, rest, rfl, rfl⟩))⟩
    · exact ⟨(cycle_next_dt hc).imp_right fun hx => .inr (.inr ⟨.inr ⟨r, rest, rfl⟩, hx⟩),
        (cycle_next_st hc).imp_right fun hx => .inr (.inr ⟨.inr ⟨r, rest, rfl⟩, hx⟩)⟩

/-! ### `ST` is not read -/

/-- The state with another sound timer, which no instruction but FX18 tells apart. -/
def State.withSt (b : Byte) (s : State) : State := { s with st := b }

theorem State.skipIf_withSt (s : State) (b : Byte) (c : Bool) :
    (s.withSt b).skipIf c = (s.skipIf c).withSt b := by
  cases c <;> rfl

/-- An instruction that completes does so with any other `ST`, which it keeps. -/
theorem exec_withSt {i : Instr} {s t : State} (b : Byte) (hi : ∀ x, i ≠ .ldStVx x) (h : exec i s = .next t) :
    exec i (s.withSt b) = .next (t.withSt b) := by
  cases i with
  | ldStVx x => exact absurd rfl (hi x)
  | ret =>
    obtain ⟨hsp, rfl⟩ | ⟨hsp, rfl⟩ := execRet_next h
    · exact exec_ret_of_pos (s := s.withSt b) hsp
    · exact exec_ret_of_empty hsp
  | call nnn =>
    obtain ⟨hsp, rfl⟩ | ⟨hsp, rfl⟩ := execCall_next h
    · exact exec_call_of_lt nnn (s := s.withSt b) hsp
    · exact exec_call_of_full nnn hsp
  | ldVxK x =>
    obtain ⟨hkw, hkey, rfl⟩ | ⟨k, hkw, hkey, rfl⟩ | ⟨k, hkw, hkey, rfl⟩ | ⟨k, hkw, hkey, rfl⟩ := execLdVxK_next h
    · exact exec_ldVxK_of_idle_of_none x hkw hkey
    · exact exec_ldVxK_of_idle_of_some x hkw hkey
    · exact exec_ldVxK_of_latched_of_down x hkw hkey
    · exact exec_ldVxK_of_latched_of_up x hkw hkey
  | skp x =>
    obtain ⟨hx, rfl⟩ := execSkp_next h
    exact (exec_skp_of_lt (s := s.withSt b) hx).trans (congrArg _ (s.skipIf_withSt b _))
  | sknp x =>
    obtain ⟨hx, rfl⟩ := execSknp_next h
    exact (exec_sknp_of_lt (s := s.withSt b) hx).trans (congrArg _ (s.skipIf_withSt b _))
  | drw | ldB | dump | load =>
    obtain ⟨hb, rfl⟩ := checkRange_next.mp h
    exact checkRange_next.mpr ⟨hb, rfl⟩
  | seImm | sneImm | seReg | sneReg =>
    obtain rfl := Host.Outcome.next.inj h
    exact congrArg _ (s.skipIf_withSt b _)
  | _ =>
    obtain rfl := Host.Outcome.next.inj h
    rfl

/-- Settles O19: every instruction but FX18 carries `ST` along. -/
theorem noInstructionReadsTheSoundTimer : Obligations.NoInstructionReadsTheSoundTimer := by
  unfold Obligations.NoInstructionReadsTheSoundTimer
  exact fun _ _ _ b hi h => exec_withSt b hi h

/-! ### `PC` after a cycle (R26) -/

/-- A skip lands at `A + 4` or `A + 2` (R148). -/
theorem State.skipIf_beginCycle_pc (r : Option Byte) (s : State) (c : Bool) :
    ((s.beginCycle r).skipIf c).pc = if c then s.pc + 4 else s.pc + 2 := by
  have h4 : s.pc + 2 + 2 = s.pc + 4 := BitVec.add_assoc s.pc 2 2
  rw [State.skipIf_pc, State.beginCycle_pc, h4]

/-- FX0A puts `PC` back to `A` (R232). -/
theorem State.again_beginCycle_pc (r : Option Byte) (s : State) : (s.beginCycle r).again.pc = s.pc :=
  BitVec.add_sub_cancel s.pc 2

/-- The level of a key that the keypad has. -/
theorem getD_key (key : Vector Bool 16) {n : Nat} (h : n < 16) : key.getD n false = key[n] := by
  simp [Vector.getD, h]

/-- The row of R26 for a legal word: the instructions that write `PC` one by one; the others leave the advance
as it is. -/
theorem exec_beginCycle_pc {r : Option Byte} {s t : State} {i : Instr} (hd : decodeWord (fetchWord s) = some i)
    (h : exec i (s.beginCycle r) = .next t) : t.pc = s.pcAfter := by
  cases i with
  | ret =>
    obtain ⟨hsp, rfl⟩ | ⟨hsp, rfl⟩ := execRet_next h <;> rw [State.beginCycle_sp] at hsp
    · simp [State.pcAfter, hd, hsp.ne', State.top]
    · simp [State.pcAfter, hd, hsp]
  | call nnn =>
    obtain ⟨hsp, rfl⟩ | ⟨hsp, rfl⟩ := execCall_next h <;> rw [State.beginCycle_sp] at hsp
    · simp [State.pcAfter, hd, hsp.ne]
    · simp [State.pcAfter, hd, hsp]
  | jp | jpV0 =>
    obtain rfl := Host.Outcome.next.inj h
    simp [State.pcAfter, hd]
  | seImm | sneImm | seReg | sneReg =>
    obtain rfl := Host.Outcome.next.inj h
    simp only [State.pcAfter, hd]
    exact State.skipIf_beginCycle_pc r s _
  | skp x =>
    obtain ⟨hx, rfl⟩ := execSkp_next h
    have hkey : s.key.getD (s.readV x).toNat false = s.key[(s.readV x).toNat] :=
      getD_key s.key hx
    simp only [State.pcAfter, hd, hkey]
    exact State.skipIf_beginCycle_pc r s _
  | sknp x =>
    obtain ⟨hx, rfl⟩ := execSknp_next h
    have hkey : s.key.getD (s.readV x).toNat false = s.key[(s.readV x).toNat] :=
      getD_key s.key hx
    simp only [State.pcAfter, hd, hkey]
    exact State.skipIf_beginCycle_pc r s _
  | ldVxK x =>
    obtain ⟨hkw, -, rfl⟩ | ⟨k, hkw, -, rfl⟩ | ⟨k, hkw, hkey, rfl⟩ | ⟨k, hkw, hkey, rfl⟩ := execLdVxK_next h <;>
      rw [State.beginCycle_kw] at hkw <;> simp only [State.pcAfter, hd, hkw]
    · exact State.again_beginCycle_pc r s
    · exact State.again_beginCycle_pc r s
    · exact (State.again_beginCycle_pc r s).trans (if_pos hkey).symm
    · exact (if_neg (ne_true_of_eq_false hkey)).symm
  | _ =>
    simp only [State.pcAfter, hd]
    exact exec_frame h .pc (by simp [writesOf])

/-- Settles O10: by the row of the fetched instruction, or, for an illegal word, `A + 2`. -/
theorem pcAfterTheCycle : Obligations.PcAfterTheCycle := by
  unfold Obligations.PcAfterTheCycle
  intro r s t h
  obtain ⟨-, ⟨i, hd, hi⟩ | ⟨hd, rfl⟩⟩ := cycle_next h
  · exact exec_beginCycle_pc hd hi
  · simp [State.pcAfter, hd]

/-! ### The step (R121, R308) -/

/-- A cycle runs the instruction it fetched, on the advanced state. -/
theorem cycle_of_decodeWord (r : Option Byte) {s : State} {i : Instr} (hp : s.pc.toNat ≤ 0xFFE)
    (hd : decodeWord (fetchWord s) = some i) : cycle r s = exec i (s.beginCycle r) := by
  rw [cycle_fetch r s hp, execWord_some _ hd]

/-- Settles O6: a step is one cycle, by default or as the host's next event. -/
theorem stepRunsTheFetchedInstruction : Obligations.StepRunsTheFetchedInstruction := by
  unfold Obligations.StepRunsTheFetchedInstruction
  refine fun s i hp hd => ⟨fun hh => ?_, fun r rest hh => ?_⟩
  · rw [step_empty hh]
    exact cycle_of_decodeWord none hp hd
  · rw [step_event hh]
    exact cycle_of_decodeWord (some r) hp hd

theorem run_succ_of_step (M : Host.Core) {s t : M.State} (h : M.step s = .next t) (n : Nat) :
    M.run (n + 1) s = M.run n t := by
  rw [Host.Core.run, h]

/-- A step at a jump to itself puts `PC` back where it was. -/
theorem step_selfJump {s : State} {nnn : BitVec 12} (hh : s.host = []) (hnnn : nnn.toNat = s.pc.toNat)
    (hp : s.pc.toNat ≤ 0xFFE) (hd : decodeWord (fetchWord s) = some (.jp nnn)) :
    step s = .next ((s.beginCycle none).writePc s.pc) := by
  have htarget : zextNNN nnn = s.pc := BitVec.eq_of_toNat_eq ((zextNNN_toNat nnn).trans hnnn)
  rw [step_empty hh, cycle_of_decodeWord none hp hd, ← htarget]
  rfl

/-- That step writes the model's own fields only. -/
theorem frame_selfJump (s : State) :
    Frame (fun p => ¬p.ofSpec) s ((s.beginCycle none).writePc s.pc) := by
  intro p hp
  cases p with
  | out | rnd => exact absurd id hp
  | _ => rfl

/-- Settles O48, by induction on the number of steps, from any such state: each step leaves such a state. -/
theorem selfJumpStopsTheProgram : Obligations.SelfJumpStopsTheProgram := by
  unfold Obligations.SelfJumpStopsTheProgram
  intro s nnn hh hnnn hp hd n
  suffices hrun : ∃ t, Sys2Proof.core.run n s = .next t ∧ Frame (fun p => ¬p.ofSpec) s t by
    obtain ⟨t, ht, hframe⟩ := hrun
    exact ⟨t, ht, fun p hspec => hframe p (not_not_intro hspec)⟩
  induction n generalizing s with
  | zero => exact ⟨s, rfl, fun p _ => by cases p <;> rfl⟩
  | succ n ih =>
    obtain ⟨t, ht, hframe⟩ := ih ((s.beginCycle none).writePc s.pc) hh hnnn hp hd
    exact ⟨t, (run_succ_of_step Sys2Proof.core (step_selfJump hh hnnn hp hd) n).trans ht,
      ((frame_selfJump s).trans hframe).mono fun _ => or_self_iff.mp⟩

end Sys2Proof.Machine
end

section
/-! PROOFS. The stack over several instructions (`41_flow.md` R140, R142): a return undoes a call, and calls
nest until the stack is full. -/

namespace Sys2Proof.Machine

/-! ### A return after a call -/

/-- With the stack a push left, the top is the word pushed (R29). -/
theorem State.top_of_push {s t : State} (w : Word) (h : s.sp.val < 12) (hstack : t.stack = (s.push w h).stack)
    (hsp : t.sp = (s.push w h).sp) (hpos : 0 < t.sp.val) : t.top hpos = w := by
  simp [State.top, hstack, hsp]

/-- With the depth a push left, a pop goes back to the depth before it (R29). -/
theorem State.pop_sp_of_push {s t : State} (w : Word) (h : s.sp.val < 12) (hsp : t.sp = (s.push w h).sp) :
    t.pop.sp = s.sp := by
  simp [hsp]

/-- Settles O23: the return pops what the call pushed. -/
theorem returnUndoesCall : Obligations.ReturnUndoesCall := by
  unfold Obligations.ReturnUndoesCall
  refine fun s nnn h => ⟨_, exec_call_of_lt nnn h, fun t hstack hsp => ?_⟩
  have hpos : 0 < t.sp.val := hsp ▸ Nat.succ_pos s.sp.val
  exact ⟨_, exec_ret_of_pos hpos, State.top_of_push s.pc h hstack hsp hpos, State.pop_sp_of_push s.pc h hsp⟩

/-! ### Lists of instructions -/

/-- A list runs its first instruction, and the rest from where that ends. -/
theorem execAll_cons_next {i : Instr} {is : List Instr} {s t : State} :
    execAll (i :: is) s = .next t ↔ ∃ u, exec i s = .next u ∧ execAll is u = .next t := by
  rw [execAll]
  cases exec i s <;> simp

/-- Calls that fit on the stack complete without a diagnostic, one level each (R142). -/
theorem execAll_calls {targets : List (BitVec 12)} {s : State} (h : s.sp.val + targets.length ≤ 12) :
    ∃ t, execAll (targets.map .call) s = .next t ∧ t.sp.val = s.sp.val + targets.length ∧ t.out = s.out := by
  induction targets generalizing s with
  | nil => exact ⟨s, rfl, rfl, rfl⟩
  | cons nnn targets ih =>
    rw [List.length_cons] at h
    have hroom : s.sp.val < 12 := by omega
    have hdepth : s.sp.val + 1 + targets.length ≤ 12 := by omega
    obtain ⟨t, hrun, hsp, hout⟩ := ih (s := (s.push s.pc hroom).writePc (zextNNN nnn)) hdepth
    refine ⟨t, execAll_cons_next.mpr ⟨_, exec_call_of_lt nnn hroom, hrun⟩, hsp.trans ?_, hout⟩
    exact Nat.add_right_comm s.sp.val 1 targets.length

/-- Settles O24: from an empty stack the depth is the number of calls, and at depth 12 a call reports. -/
theorem callsNestTwelveDeep : Obligations.CallsNestTwelveDeep := by
  unfold Obligations.CallsNestTwelveDeep
  intro s targets hempty hlen
  obtain ⟨t, hrun, hsp, hout⟩ := execAll_calls (s := s) (targets := targets) (by omega)
  rw [hempty, Nat.zero_add] at hsp
  exact ⟨t, hrun, hsp, hout, fun hfull nnn =>
    ⟨_, exec_call_of_full nnn (hsp.trans hfull), rfl, frame_report t _⟩⟩

end Sys2Proof.Machine
end

section
/-! PROOFS. The instructions that move one byte from a source outside the registers, or to one (`42_alu.md`
R172; `45_keypad_timers.md` R233 to R235): the random input and the timers. -/

namespace Sys2Proof.Machine

theorem State.rndValue_of_some {s : State} {r : Byte} (h : s.rnd = some r) : s.rndValue = r := by
  rw [State.rndValue, h, Option.getD_some]

theorem State.rndValue_of_none {s : State} (h : s.rnd = none) : s.rndValue = Config.freeRnd s.rndIndex := by
  rw [State.rndValue, h, Option.getD_none]

/-- Settles O31: one write of `rnd AND NN`, after the draw is used up. -/
theorem randomMasksTheInput : Obligations.RandomMasksTheInput := by
  unfold Obligations.RandomMasksTheInput
  intro s x nn
  have hbit (j : Nat) : ((s.nextDraw.writeV x (s.rndValue &&& nn)).readV x).getLsbD j =
      (s.rndValue.getLsbD j && nn.getLsbD j) := by
    rw [State.readV_writeV_self, BitVec.getLsbD_and]
  refine ⟨_, rfl, fun r hr j => ?_, fun hnone j => ?_, rfl,
    ((frame_nextDraw s).trans (frame_writeV _ x _)).mono fun _ => Or.symm⟩
  · rw [← State.rndValue_of_some hr, hbit]
  · rw [← State.rndValue_of_none hnone, hbit]

/-- Settles O44: each of the three is one write of the byte it moves. -/
theorem timerInstructionsMoveOneByte : Obligations.TimerInstructionsMoveOneByte := by
  unfold Obligations.TimerInstructionsMoveOneByte
  refine fun s x => ⟨?_, ?_, ?_⟩
  · exact ⟨_, rfl, s.readV_writeV_self x s.dt, frame_writeV s x _⟩
  · exact ⟨_, rfl, rfl, frame_writeDt s _⟩
  · exact ⟨_, rfl, rfl, (s.writeSt (s.readV x)).audible_iff, frame_writeSt s _⟩

end Sys2Proof.Machine
end

section
/-! PROOFS. Stores read back (`43_index_memory.md` R194, R195; `20_memory.md` R73): by a load of the same
registers, and by the next fetch. -/

namespace Sys2Proof.Machine

/-- Settles O36: the load reads the bytes the dump stored, and both advance the same `I` alike. -/
theorem dumpThenLoadRoundTrips : Obligations.DumpThenLoadRoundTrips := by
  unfold Obligations.DumpThenLoadRoundTrips
  intro s x hfits
  obtain ⟨t, ht, hstored, hti, -⟩ := (dumpStoresTheRegisters s x).1 hfits
  refine ⟨t, ht, fun u hui hmem => ?_⟩
  obtain ⟨w, hw, hloaded, hwi, -⟩ := (loadReadsTheRegisters u x).1 (hui ▸ hfits)
  rw [hui] at hwi hloaded
  rw [hmem] at hloaded
  exact ⟨w, hw, BitVec.eq_of_toNat_eq (hwi.trans hti.symm),
    fun k hk => (hloaded k hk).trans (hstored k hk)⟩

/-- Settles O37: the dump stores `V0` and `V1` where the next fetch reads. -/
theorem storeIsSeenByTheNextFetch : Obligations.StoreIsSeenByTheNextFetch := by
  unfold Obligations.StoreIsSeenByTheNextFetch
  intro r s x hnext hx hi hfits
  obtain ⟨hp, hd⟩ := State.nextInstr_eq_some.mp hnext
  obtain ⟨t, ht, hstored, -, hframe⟩ := (dumpStoresTheRegisters (s.beginCycle r) x).1 hfits
  have hpc : t.pc = s.i := (hframe .pc (by simp)).trans hi.symm
  have h0 : t.mem.read s.i.toNat = s.readV 0 := hstored 0 (Nat.zero_le _)
  have h1 : t.mem.read (s.i.toNat + 1) = s.readV 1 := hstored 1 hx
  refine ⟨t, (cycle_of_decodeWord r hp hd).trans ht, hpc, ?_⟩
  rw [fetchWord, hpc, h0, h1]

end Sys2Proof.Machine
end

section
/-! PROOFS. The display over one draw, two draws and a list of instructions (`44_display.md` R211, R212;
`60_exceptions.md` R263): the clipped sprite, its second drawing, and the dirty flag. -/

namespace Sys2Proof.Machine

/-! ### One draw (R211) -/

/-- The sprite of DXYN has a 1 bit on this pixel of the display. -/
def State.spriteOn (s : State) (x y : Reg) (n : BitVec 4) (px : Fin 64) (py : Fin 32) : Prop :=
  spriteBit s.mem s.i.toNat ((s.readV x).toNat % 64) ((s.readV y).toNat % 32) n.toNat px.val py.val

section
variable (s : State) (x y : Reg) (n : BitVec 4)

theorem exec_drw_next_iff {t : State} : exec (.drw x y n) s = .next t ↔
    (n.toNat = 0 ∨ s.i.toNat + n.toNat ≤ 0x1000) ∧ t = s.drawn x y n := by
  rw [← outOfBounds_eq_none]
  exact checkRange_next

theorem State.drawn_pixel_iff (px : Fin 64) (py : Fin 32) :
    (s.drawn x y n).fb.pixel px.val py.val = true ↔
      ¬(s.fb.pixel px.val py.val = true ↔ s.spriteOn x y n px py) :=
  Drawing.rows_pixel_iff ..

theorem State.drawn_vf : (s.drawn x y n).readV vf = flagByte (s.sprite x y n).hit := by
  rw [State.drawn, State.readV_writeFb, State.readV_writeV_self]

/-- A collision is a 1 bit of the sprite on a set pixel. -/
theorem State.sprite_hit_iff : (s.sprite x y n).hit = true ↔
    ∃ (px : Fin 64) (py : Fin 32), s.fb.pixel px.val py.val = true ∧ s.spriteOn x y n px py :=
  (Drawing.rows_hit_iff ..).trans (or_iff_right nofun)

theorem State.drawn_vf_eq_one_iff : (s.drawn x y n).readV vf = 1 ↔
    ∃ (px : Fin 64) (py : Fin 32), s.fb.pixel px.val py.val = true ∧ s.spriteOn x y n px py := by
  rw [State.drawn_vf, ← State.sprite_hit_iff]
  cases (s.sprite x y n).hit <;> decide

/-- VF is 1 with a collision and 0 without one. -/
theorem State.drawn_vf_cases :
    ((s.drawn x y n).readV vf = 1 ∧
      ∃ (px : Fin 64) (py : Fin 32), s.fb.pixel px.val py.val = true ∧ s.spriteOn x y n px py) ∨
    ((s.drawn x y n).readV vf = 0 ∧
      ∀ (px : Fin 64) (py : Fin 32), s.fb.pixel px.val py.val = true → ¬s.spriteOn x y n px py) := by
  have hhit := s.sprite_hit_iff x y n
  rw [State.drawn_vf]
  cases h : (s.sprite x y n).hit with
  | true => exact .inl ⟨rfl, hhit.mp h⟩
  | false => exact .inr ⟨rfl, fun px py hset hon => ne_true_of_eq_false h (hhit.mpr ⟨px, py, hset, hon⟩)⟩

end

/-- Settles O39: under the bounds check, the pixels and the collision in closed form. -/
theorem drawXorsTheClippedSprite : Obligations.DrawXorsTheClippedSprite := by
  unfold Obligations.DrawXorsTheClippedSprite
  refine fun s x y n => ⟨fun h => ?_, fun hn h => ?_⟩
  · exact ⟨_, (exec_drw_next_iff s x y n).mpr ⟨by omega, rfl⟩, s.drawn_pixel_iff x y n,
      s.drawn_vf_cases x y n, rfl, frame_drawn s x y n⟩
  · exact checkRange_of_gt hn (by omega) _

/-! ### The same sprite again (R212) -/

/-- The sprite depends on its own bytes only. -/
theorem spriteBit_congr {m m' : Memory} {a n : Nat} (h : ∀ r < n, m'.read (a + r) = m.read (a + r))
    (x0 y0 px py : Nat) : spriteBit m' a x0 y0 n px py ↔ spriteBit m a x0 y0 n px py := by
  unfold spriteBit
  refine and_congr_right fun _ => and_congr_right fun _ => and_congr_right fun _ => and_congr_right fun _ => ?_
  rw [h _ (by omega)]

/-- Settles O40: the same pixels are inverted twice, and where the second draw meets a set pixel the first one
set it. -/
theorem drawTwiceRestoresThePixels : Obligations.DrawTwiceRestoresThePixels := by
  unfold Obligations.DrawTwiceRestoresThePixels
  intro s t x y n h
  obtain ⟨hb, rfl⟩ := (exec_drw_next_iff s x y n).mp h
  refine ⟨fun px py hout => ?_, fun t' hfb hi hx hy hmem => ?_⟩
  · refine exec_frame h (.pixel px py) fun hw => ?_
    obtain hw | hw | ⟨_, _, hw, hx, -, hy, -⟩ := hw <;> cases hw
    omega
  · have hdraw : exec (.drw x y n) t' = .next (t'.drawn x y n) :=
      (exec_drw_next_iff t' x y n).mpr ⟨hi ▸ hb, rfl⟩
    have hon (px : Fin 64) (py : Fin 32) : t'.spriteOn x y n px py ↔ s.spriteOn x y n px py := by
      rw [State.spriteOn, hi, hx, hy]
      exact spriteBit_congr hmem ..
    refine ⟨_, hdraw, fun px py => ?_, ?_, ?_⟩
    · rw [Bool.eq_iff_iff, State.drawn_pixel_iff, hon, hfb, State.drawn_pixel_iff]
      tauto
    · refine (State.drawn_vf_eq_one_iff ..).trans (exists_congr fun px => exists_congr fun py => ?_)
      rw [hon, hfb, State.drawn_pixel_iff, ← Bool.not_eq_true]
      tauto
    · refine (State.drawn_vf_eq_one_iff ..).trans (exists_congr fun px => exists_congr fun py => ?_)
      rw [hon, hfb, State.drawn_pixel_iff, ← Bool.not_eq_true]
      unfold State.spriteOn
      tauto

/-! ### The dirty flag (R33, R263) -/

/-- `DIRTY` is set by 00E0 and by DXYN, and cleared by no instruction. -/
theorem exec_next_dirty {i : Instr} {s t : State} (h : exec i s = .next t) :
    t.dirty = true ↔ s.dirty = true ∨ i = .cls ∨ ∃ x y n, i = .drw x y n := by
  by_cases hi : i = .cls ∨ ∃ x y n, i = .drw x y n
  · refine iff_of_true ?_ (.inr hi)
    obtain rfl | ⟨x, y, n, rfl⟩ := hi
    · obtain rfl := Host.Outcome.next.inj h
      rfl
    · obtain ⟨-, rfl⟩ := (exec_drw_next_iff s x y n).mp h
      rfl
  · have hsame : t.dirty = s.dirty := exec_next_same (p := .dirty) h hi
    rw [hsame, or_iff_left hi]

/-- So after a list it is set where it was, or where one of the list was such an instruction. -/
theorem execAll_next_dirty {is : List Instr} {s t : State} (h : execAll is s = .next t) :
    t.dirty = true ↔ s.dirty = true ∨ ∃ i ∈ is, i = .cls ∨ ∃ x y n, i = .drw x y n := by
  induction is generalizing s with
  | nil =>
    obtain rfl := Host.Outcome.next.inj h
    simp
  | cons i is ih =>
    obtain ⟨u, hu, hrun⟩ := execAll_cons_next.mp h
    rw [ih hrun, exec_next_dirty hu, List.exists_mem_cons_iff, or_assoc]

theorem frame_redrawEvent (s : State) : Frame (fun p => p = .dirty ∨ p = .out) s s.redrawEvent := by
  intro p hp
  cases p with
  | dirty | out => simp at hp
  | _ => rfl

/-- Settles O41: the flag collects the list, and the query hands it over. -/
theorem dirtyTellsOfAClearOrADraw : Obligations.DirtyTellsOfAClearOrADraw := by
  unfold Obligations.DirtyTellsOfAClearOrADraw
  intro is s t h hclean
  refine ⟨?_, _, rfl, rfl, rfl, frame_redrawEvent t⟩
  rw [execAll_next_dirty h, or_iff_right (ne_true_of_eq_false hclean)]

end Sys2Proof.Machine
end
